-- ==== Sys2Proof/Word.lean ====
section
/-! DEFINITION. The word types of the DCC core and the one bit-list reading of them (spec/00_scope.md R7:
unsigned values, bit 0 least significant). -/

namespace Sys2Proof

/-- A byte of a packet (R7). -/
abbrev Byte := BitVec 8

/-- A Control Word, the unit that crosses from SCHED to ENGINE (R60). -/
abbrev Word := BitVec 32

/-- A command word on the HOST port (R72). -/
abbrev CmdWord := BitVec 40

/-- The 16-bit address operand of a command (R72). -/
abbrev Addr := BitVec 16

/-- The bits of a value, most significant first: the order in which everything travels (R41). -/
def bitsOf {n : Nat} (v : BitVec n) : List Bool := (List.range n).map v.getMsbD

end Sys2Proof
end

