-- ==== Sys2Proof/Config.lean ====
section
/-! DEFINITION. The implementation parameters of spec/00_scope.md R6 at their default values, and the free values:
constants with no body, one for each value the spec leaves open (log entries 9, 10 and 11). -/

namespace Sys2Proof

/-! ## Parameters (R6) -/

/-- `QDEPTH`: capacity of the control-word queue, in words. -/
@[simp] abbrev Config.qDepth : Nat := 8
/-- `HALF_ONE_US`: microseconds of one half-cycle of a `1` bit. -/
@[simp] abbrev Config.halfOneUs : Nat := 58
/-- `HALF_ZERO_US`: microseconds of one half-cycle of a `0` bit. -/
@[simp] abbrev Config.halfZeroUs : Nat := 100
/-- `T_CLK_NS`: period of the engine clock in nanoseconds (decision D1, log 3). -/
@[simp] abbrev Config.tClkNs : Nat := 1000
/-- `HALF_ONE`: engine clocks of one half-cycle of a `1` bit, `58000 / T_CLK_NS` (R108). -/
@[simp] abbrev Config.halfOne : Nat := 58
/-- `HALF_ZERO`: engine clocks of one half-cycle of a `0` bit, `100000 / T_CLK_NS` (R108). -/
@[simp] abbrev Config.halfZero : Nat := 100
/-- `TICK_PERIOD_MS`: the scheduler's period in milliseconds. -/
@[simp] abbrev Config.tickPeriodMs : Nat := 15
/-- `TICK_PERIOD`: the scheduler's period in engine clocks (decision D12, log 16). -/
@[simp] abbrev Config.tickPeriod : Nat := 15000
/-- `PP_BIT`: position of the preamble/padding marker (decision D2, log 4). -/
@[simp] abbrev Config.ppBit : Nat := 31
/-- `FB_BIT`: position of the final-byte marker (decision D2, log 4). -/
@[simp] abbrev Config.fbBit : Nat := 30
/-- `PP_NBITS`: line bits of a preamble/padding word. -/
@[simp] abbrev Config.ppNBits : BitVec 5 := 16
/-- `DB_NBITS`: line bits of a data-byte word, start bit included. -/
@[simp] abbrev Config.dbNBits : BitVec 5 := 9
/-- `PREAMBLE_BITS`: literal bits of the preamble word. -/
@[simp] abbrev Config.preambleBits : BitVec 16 := 0xFFFF
/-- `MAX_PAYLOAD`: largest payload SEND accepts, checksum excluded. -/
@[simp] abbrev Config.maxPayload : Nat := 5
/-- `MAX_PACKET_WORDS`: largest number of words one packet enqueues. -/
@[simp] abbrev Config.maxPacketWords : Nat := 7
/-- `ADDR_MIN`: smallest valid address. -/
@[simp] abbrev Config.addrMin : Nat := 1
/-- `ADDR_SHORT_MAX`: largest short address. -/
@[simp] abbrev Config.addrShortMax : Nat := 127
/-- `ADDR_MAX`: largest valid address. -/
@[simp] abbrev Config.addrMax : Nat := 0x27FF
/-- `LONG_ADDR_PREFIX`: OR-ed into the first byte of a long address. -/
@[simp] abbrev Config.longAddrMark : Byte := 0xC0
/-- `SPEED_MAX`: largest valid speed. -/
@[simp] abbrev Config.speedMax : Nat := 127
/-- `SPEED_SELECTOR`: first instruction byte of a speed packet. -/
@[simp] abbrev Config.speedSelector : Byte := 0x3F
/-- `DIR_BIT_MASK`: the direction bit of the second speed instruction byte. -/
@[simp] abbrev Config.dirBitMask : Byte := 0x80
/-- `FN_MAX`: largest valid function index. -/
@[simp] abbrev Config.fnMax : Nat := 4
/-- `FG1_BASE`: base value of the function-group-1 instruction byte. -/
@[simp] abbrev Config.fg1Base : Byte := 0x80
/-- `IDLE_PAYLOAD`: payload of the idle packet. -/
@[simp] abbrev Config.idlePayload : List Byte := [0xFF, 0x00]
/-- `DIR_FORWARD`: operand code of the forward direction (decision D13). -/
@[simp] abbrev Config.dirForward : Byte := 1
/-- `DIR_REVERSE`: operand code of the reverse direction (decision D13). -/
@[simp] abbrev Config.dirReverse : Byte := 0
/-- `REG_DEPTH`: entries the registry can hold, at the spec's default, one per possible key (decision D10, log 13). -/
@[simp] abbrev Config.regDepth : Nat := 20478
/-- `ENTRY_MAX_BYTES`: longest entry the commands can create (R150). -/
@[simp] abbrev Config.entryMaxBytes : Nat := 4
/-- `LINE_RESET_LEVEL`: level of LINE after reset (decision D6, log 17). -/
@[simp] abbrev Config.lineResetLevel : Bool := false

/-! ## Free values: nothing in the model can evaluate them, so a statement holds whatever they are -/

/-- FREE VALUE (log 9): the mask `FN_MASK` answers for an index outside its table, 5 to 255 (R127 lists 0 to 4 only). -/
opaque Config.fnMaskOpen : Byte → Byte

/-- FREE VALUE (log 10): NBITS after a SHIFT_OUT that finds NBITS = 0 (R96 calls it with NBITS >= 1 only). -/
opaque Config.shiftOutNbits : BitVec 16 → BitVec 5

/-- FREE VALUE (log 11): what byte `k` of a fresh entry holds where its payload ends before it, by class code and
address (R21 "the rest are don't-care", U15 "any value"). -/
opaque Config.spareByte : BitVec 1 → BitVec 14 → Nat → Byte

/-- FREE VALUE (log 11): what a read of byte `k` answers outside an entry's four bytes: an entry with `len` 0 or above
4, which no operation creates (R150). -/
opaque Config.overrunByte : Nat → Byte

end Sys2Proof
end

