-- ==== Sys2Proof/Syntax.lean ====
section
/-! DEFINITION. The instructions: one constructor for each of the 41 rows of spec/opcode_table.json, in the table's
order. Operand names are the spec's. -/

namespace Sys2Proof

/-- The command class of a registry key (R9, R21): `CLS_SPEED` = 0, `CLS_FG1` = 1 (decision D13). -/
inductive Cls where
  | speed
  | fg1
  deriving DecidableEq, Repr

/-- The one-bit code of a class (R21). -/
def Cls.code : Cls → BitVec 1
  | .speed => 0
  | .fg1 => 1

/-- What the spec's opcode table lists. "Instruction" means what spec/00_scope.md section 4 says it means. -/
inductive Instr where
  /-- PP (R61, R98): `reserved` = w[30:16], `bits` = w[15:0]. -/
  | pp (reserved : BitVec 15) (bits : BitVec 16)
  /-- DB (R62, R99): `reserved` = w[29:9], `start` = w[8], `data` = w[7:0]. -/
  | db (reserved : BitVec 21) (start : BitVec 1) (data : Byte)
  /-- DBF (R62, R100): as DB, the packet's final byte. -/
  | dbf (reserved : BitVec 21) (start : BitVec 1) (data : Byte)
  /-- PREAMBLE (R61): the named PP word whose bits are all ones. -/
  | preamble (reserved : BitVec 15)
  /-- PAD (R61): the named PP word whose bits are all zeros. -/
  | pad (reserved : BitVec 15)
  /-- POWER_QUERY (R72, R162): every field but `op` is ignored. -/
  | powerQuery (reserved : BitVec 4) (address : Addr) (arg1 arg2 : Byte)
  /-- POWER_OFF (R72, R161). -/
  | powerOff (reserved : BitVec 4) (address : Addr) (arg1 arg2 : Byte)
  /-- POWER_ON (R72, R160). -/
  | powerOn (reserved : BitVec 4) (address : Addr) (arg1 arg2 : Byte)
  /-- SET_SPEED (R72, R141): arg1 = direction, arg2 = speed. -/
  | setSpeed (reserved : BitVec 4) (address : Addr) (direction speed : Byte)
  /-- SET_FG1 (R72, R142): arg1 = function_index, arg2 = state. -/
  | setFg1 (reserved : BitVec 4) (address : Addr) (functionIndex fnState : Byte)
  /-- RESERVED_OP (R73, R75): a command word with `op` 0x5 to 0xF. -/
  | reservedOp (op : BitVec 4) (reserved : BitVec 4) (address : Addr) (arg1 arg2 : Byte)
  /-- PKT_SPEED_SHORT (R66): address 1..127, direction bit, 7-bit speed. -/
  | pktSpeedShort (address : BitVec 7) (direction : BitVec 1) (speed : BitVec 7)
  /-- PKT_SPEED_LONG (R66): address 128..0x27FF, direction bit, 7-bit speed. -/
  | pktSpeedLong (address : BitVec 14) (direction : BitVec 1) (speed : BitVec 7)
  /-- PKT_FG1_SHORT (R66): address 1..127, function states in the order f0 f4 f3 f2 f1. -/
  | pktFg1Short (address : BitVec 7) (functions : BitVec 5)
  /-- PKT_FG1_LONG (R66): address 128..0x27FF, function states in the order f0 f4 f3 f2 f1. -/
  | pktFg1Long (address : BitVec 14) (functions : BitVec 5)
  /-- PKT_IDLE (R66, R145). -/
  | pktIdle
  /-- START (R90). -/
  | start
  /-- STOP (R91). -/
  | stop
  /-- Q_PUSH (R92). -/
  | qPush (w : Word)
  /-- ENQUEUE (R93). -/
  | enqueue (ws : List Word)
  /-- ENGINE_CLOCK (R94). -/
  | engineClock
  /-- NEXT_BIT (R95). -/
  | nextBit
  /-- SHIFT_OUT (R96). -/
  | shiftOut
  /-- LOAD_WORD (R97). -/
  | loadWord (w : Word)
  /-- VALID_ADDR (R120). -/
  | validAddr (address : Addr)
  /-- VALID_SPEED (R121). -/
  | validSpeed (speed : Byte)
  /-- VALID_DIR (R122). -/
  | validDir (direction : Byte)
  /-- VALID_FN (R123). -/
  | validFn (functionIndex : Byte)
  /-- VALID_STATE (R124). -/
  | validState (fnState : Byte)
  /-- ADDR_BYTES (R125). -/
  | addrBytes (address : Addr)
  /-- ENC_SPEED (R126). -/
  | encSpeed (direction speed : Byte)
  /-- FN_MASK (R127). -/
  | fnMask (functionIndex : Byte)
  /-- ENC_FG1 (R128). -/
  | encFg1 (functionIndex fnState : Byte)
  /-- CHECKSUM (R129). -/
  | checksum (bytes : List Byte)
  /-- FRAME (R130). -/
  | frame (payload : List Byte)
  /-- REG_FIND (R140). -/
  | regFind (cls : Cls) (address : Addr)
  /-- TICK (R143). -/
  | tick
  /-- SEND (R144). -/
  | send (payload : List Byte)
  /-- TIMER_CLOCK (R148). -/
  | timerClock
  /-- CLOCK_STEP (R149). -/
  | clockStep
  /-- EXEC_CMD (R166). -/
  | execCmd (cmd : CmdWord)
  deriving DecidableEq, Repr

end Sys2Proof
end

