-- ==== Sys2Proof/WellFormed.lean ====
section
/-! DEFINITION. When a term of Instr stands for a row of the opcode table: its operands lie in the ranges the spec
gives them. Executing does not require it; the encoder's round trip does. -/

namespace Sys2Proof

/-- A short address: 1 to 127 (R67). -/
def shortAddressOk (a : BitVec 7) : Bool := Config.addrMin ≤ a.toNat

/-- A long address: 128 to 0x27FF (R67). -/
def longAddressOk (a : BitVec 14) : Bool :=
  Config.addrShortMax < a.toNat && a.toNat ≤ Config.addrMax

/-- An address operand of a command: 1 to 0x27FF (R72). -/
def addressOk (a : Addr) : Bool := Config.addrMin ≤ a.toNat && a.toNat ≤ Config.addrMax

/-- The bits of a PP word that has no name of its own: the all-ones and all-zeros words are written PREAMBLE and PAD
(R61, log 6). -/
def ppBitsOk (bits : BitVec 16) : Bool := bits ≠ Config.preambleBits && bits ≠ 0

/-- A reserved operation code: 0x5 to 0xF (R73). -/
def reservedOpOk (op : BitVec 4) : Bool := 5 ≤ op.toNat

/-- The well-formed terms. A command word is well formed whatever its operands are: an operand outside its valid range
is an encoding with a meaning, validation failure (R75 b). -/
def wellFormed : Instr → Bool
  | .pp _ bits => ppBitsOk bits
  | .reservedOp op _ _ _ _ => reservedOpOk op
  | .pktSpeedShort a _ _ => shortAddressOk a
  | .pktSpeedLong a _ _ => longAddressOk a
  | .pktFg1Short a _ => shortAddressOk a
  | .pktFg1Long a _ => longAddressOk a
  | .addrBytes a => addressOk a
  | .encSpeed d s => d.toNat ≤ 1 && s.toNat ≤ Config.speedMax
  | .fnMask i => i.toNat ≤ Config.fnMax
  | .encFg1 i st => i.toNat ≤ Config.fnMax && st.toNat ≤ 1
  | .checksum p => p.length ≤ Config.maxPayload
  | .frame p => p.length ≤ Config.maxPayload
  | .regFind _ a => addressOk a
  | .send p => p.length ≤ 7
  | .db _ _ _ | .dbf _ _ _ | .preamble _ | .pad _ => true
  | .powerQuery _ _ _ _ | .powerOff _ _ _ _ | .powerOn _ _ _ _ => true
  | .setSpeed _ _ _ _ | .setFg1 _ _ _ _ => true
  | .pktIdle | .start | .stop | .qPush _ | .enqueue _ => true
  | .engineClock | .nextBit | .shiftOut | .loadWord _ => true
  | .validAddr _ | .validSpeed _ | .validDir _ | .validFn _ | .validState _ => true
  | .tick | .timerClock | .clockStep | .execCmd _ => true

end Sys2Proof
end

