-- ==== Sys2Proof/Decode.lean ====
section
/-! DEFINITION. Decoding and encoding (spec/30_encoding.md). Control words and command words are decoded, every value
of them (R63, R75); wire packets are emitted and never decoded (R77), so decoding one is rejected by name; internal
operations have no encoding (R77). -/

namespace Sys2Proof

/-- An encoded operation: a 32-bit control word, a 40-bit command word, or the line bits of a packet, earliest first. -/
inductive Code where
  | control (w : Word)
  | command (w : CmdWord)
  | wire (bits : List Bool)
  deriving DecidableEq, Repr

/-- Why an encoded operation is not decoded. Safe: the hardware has no decoder for it. -/
inductive DecodeError where
  /-- A wire packet: the hardware emits it and never decodes it (R77). -/
  | wireIsNeverDecoded
  deriving DecidableEq, Repr

/-- How many bits an encoding has. -/
def Code.nbits : Code → Nat
  | .control _ => 32
  | .command _ => 40
  | .wire bits => bits.length

/-! ## Control words (R60 to R63) -/

/-- The markers are taken out of a word and put back at the positions `PP_BIT` and `FB_BIT`: `v` with bit `b` put in at
position `p`, the bits from `p` up moving one place higher (R60). -/
def insertBit {n : Nat} (p : Nat) (b : Bool) (v : BitVec n) : BitVec (n + 1) :=
  BitVec.ofNat (n + 1) (v.toNat / 2 ^ p * 2 ^ (p + 1) + b.toNat * 2 ^ p + v.toNat % 2 ^ p)

/-- `v` with its bit at position `p` taken out, the bits above `p` moving one place lower (R60). -/
def removeBit {n : Nat} (p : Nat) (v : BitVec (n + 1)) : BitVec n :=
  BitVec.ofNat n (v.toNat / 2 ^ (p + 1) * 2 ^ p + v.toNat % 2 ^ p)

/-- Where `FB_BIT` stands in the 31 bits that are left once the bit at `PP_BIT` is taken out (R60). -/
def fbBitBesidePp : Nat := if Config.fbBit < Config.ppBit then Config.fbBit else Config.fbBit - 1

/-- The ignored bits of a PP word, those above the low 16 but `PP_BIT`: bits 30:16 at its default (R61). -/
def ppReserved (w : Word) : BitVec 15 := (removeBit Config.ppBit w).extractLsb' 16 15
/-- The sixteen literal line bits of a PP word (R61). -/
def ppBits (w : Word) : BitVec 16 := w.extractLsb' 0 16
/-- The ignored bits of a data-byte word, those above the low 9 but the two markers: bits 29:9 at their defaults (R62). -/
def dbReserved (w : Word) : BitVec 21 := (removeBit fbBitBesidePp (removeBit Config.ppBit w)).extractLsb' 9 21
/-- Bit 8 of a data-byte word, the start bit (R62). -/
def dbStart (w : Word) : BitVec 1 := w.extractLsb' 8 1
/-- The byte of a data-byte word (R62). -/
def dbData (w : Word) : Byte := w.extractLsb' 0 8

/-- Decoding a control word is total (R63). An all-ones or all-zeros PP word gets its own name (log 6). -/
def decodeControl (w : Word) : Instr :=
  if w.getLsbD Config.ppBit then
    if ppBits w = Config.preambleBits then .preamble (ppReserved w)
    else if ppBits w = 0 then .pad (ppReserved w)
    else .pp (ppReserved w) (ppBits w)
  else if w.getLsbD Config.fbBit then .dbf (dbReserved w) (dbStart w) (dbData w)
  else .db (dbReserved w) (dbStart w) (dbData w)

/-! ## Command words (R72, R73) -/

/-- `op` = cmd[39:36]. -/
def cmdOp (w : CmdWord) : BitVec 4 := w.extractLsb' 36 4
/-- Bits 35:32, ignored. -/
def cmdReserved (w : CmdWord) : BitVec 4 := w.extractLsb' 32 4
/-- `address` = cmd[31:16]. -/
def cmdAddress (w : CmdWord) : Addr := w.extractLsb' 16 16
/-- `arg1` = cmd[15:8]. -/
def cmdArg1 (w : CmdWord) : Byte := w.extractLsb' 8 8
/-- `arg2` = cmd[7:0]. -/
def cmdArg2 (w : CmdWord) : Byte := w.extractLsb' 0 8

/-- Decoding a command word is total (R73, R75 a). -/
def decodeCommand (w : CmdWord) : Instr :=
  match (cmdOp w).toNat with
  | 0 => .powerQuery (cmdReserved w) (cmdAddress w) (cmdArg1 w) (cmdArg2 w)
  | 1 => .powerOff (cmdReserved w) (cmdAddress w) (cmdArg1 w) (cmdArg2 w)
  | 2 => .powerOn (cmdReserved w) (cmdAddress w) (cmdArg1 w) (cmdArg2 w)
  | 3 => .setSpeed (cmdReserved w) (cmdAddress w) (cmdArg1 w) (cmdArg2 w)
  | 4 => .setFg1 (cmdReserved w) (cmdAddress w) (cmdArg1 w) (cmdArg2 w)
  | _ => .reservedOp (cmdOp w) (cmdReserved w) (cmdAddress w) (cmdArg1 w) (cmdArg2 w)

/-- Decoding, total on every code. -/
def decode : Code → Except DecodeError Instr
  | .control w => .ok (decodeControl w)
  | .command w => .ok (decodeCommand w)
  | .wire _ => .error .wireIsNeverDecoded

/-- The decoder on a word of the opcode table: 32-bit rows are control words, 40-bit rows are command words, both whole
(R41 f: no byte order arises). Rows of other widths are wire packets or have no encoding (log 23). -/
def decodeTableWord (nbits w : Nat) : Option Instr :=
  match nbits with
  | 32 => some (decodeControl (BitVec.ofNat 32 w))
  | 40 => some (decodeCommand (BitVec.ofNat 40 w))
  | _ => none

/-! ## The encoder -/

/-- A PP word from its fields, the marker at `PP_BIT` set (R60, R61). -/
def ppControl (reserved : BitVec 15) (bits : BitVec 16) : Word :=
  insertBit Config.ppBit true (reserved ++ bits : BitVec 31)

/-- A data-byte word from its fields, the marker at `PP_BIT` clear and the one at `FB_BIT` as given (R60, R62). -/
def dbControl (final : Bool) (reserved : BitVec 21) (start : BitVec 1) (data : Byte) : Word :=
  insertBit Config.ppBit false (insertBit fbBitBesidePp final (reserved ++ start ++ data : BitVec 30))

/-- A command word from its fields (R72). -/
def commandWord (op reserved : BitVec 4) (address : Addr) (arg1 arg2 : Byte) : CmdWord :=
  op ++ reserved ++ address ++ arg1 ++ arg2

/-- One byte on the line: the start bit, then the byte (R65). -/
def wireByte (b : Byte) : List Bool := false :: bitsOf b

/-- The line bits of a packet whose bytes, checksum included, are `bytes`: preamble, bytes, end bit (R65). -/
def wirePacket (bytes : List Byte) : List Bool :=
  List.replicate 16 true ++ bytes.flatMap wireByte ++ [true]

/-- The first byte of a long address on the wire: `1 1 a13 .. a8` (R67). -/
def longAddrHigh (a : BitVec 14) : Byte := (3#2 ++ a.extractLsb' 8 6 : BitVec 8)
/-- The second byte of a long address on the wire: `a7 .. a0` (R67). -/
def longAddrLow (a : BitVec 14) : Byte := a.extractLsb' 0 8
/-- The byte of a short address on the wire: `0 a6 .. a0` (R67). -/
def shortAddrByte (a : BitVec 7) : Byte := (0#1 ++ a : BitVec 8)
/-- The speed byte `d s6 .. s0` (R68). -/
def speedByte (d : BitVec 1) (s : BitVec 7) : Byte := (d ++ s : BitVec 8)
/-- The function byte `1 0 0 f0 f4 f3 f2 f1` (R69). -/
def functionByte (f : BitVec 5) : Byte := (4#3 ++ f : BitVec 8)

/-- The words of an instruction, from the encoding tables of R61, R62, R66 and R72. An internal operation has none. -/
def encode : Instr → Option Code
  | .pp r b => some (.control (ppControl r b))
  | .preamble r => some (.control (ppControl r Config.preambleBits))
  | .pad r => some (.control (ppControl r 0))
  | .db r s d => some (.control (dbControl false r s d))
  | .dbf r s d => some (.control (dbControl true r s d))
  | .powerQuery r a x y => some (.command (commandWord 0 r a x y))
  | .powerOff r a x y => some (.command (commandWord 1 r a x y))
  | .powerOn r a x y => some (.command (commandWord 2 r a x y))
  | .setSpeed r a x y => some (.command (commandWord 3 r a x y))
  | .setFg1 r a x y => some (.command (commandWord 4 r a x y))
  | .reservedOp op r a x y => some (.command (commandWord op r a x y))
  | .pktSpeedShort a d s =>
      some (.wire (wirePacket [shortAddrByte a, 0x3F, speedByte d s, shortAddrByte a ^^^ 0x3F ^^^ speedByte d s]))
  | .pktSpeedLong a d s =>
      some (.wire (wirePacket [longAddrHigh a, longAddrLow a, 0x3F, speedByte d s,
        longAddrHigh a ^^^ longAddrLow a ^^^ 0x3F ^^^ speedByte d s]))
  | .pktFg1Short a f =>
      some (.wire (wirePacket [shortAddrByte a, functionByte f, shortAddrByte a ^^^ functionByte f]))
  | .pktFg1Long a f =>
      some (.wire (wirePacket [longAddrHigh a, longAddrLow a, functionByte f,
        longAddrHigh a ^^^ longAddrLow a ^^^ functionByte f]))
  | .pktIdle => some (.wire (wirePacket [0xFF, 0x00, 0xFF]))
  | .start | .stop | .qPush _ | .enqueue _ | .engineClock | .nextBit | .shiftOut | .loadWord _ => none
  | .validAddr _ | .validSpeed _ | .validDir _ | .validFn _ | .validState _ | .addrBytes _ => none
  | .encSpeed _ _ | .fnMask _ | .encFg1 _ _ | .checksum _ | .frame _ | .regFind _ _ => none
  | .tick | .send _ | .timerClock | .clockStep | .execCmd _ => none

end Sys2Proof
end

