-- ==== Sys2Proof/Machine/State.lean ====
section
/-! DEFINITION. The state of the DCC core (spec/10_state.md) as plain data, its reset value (R36), and the reasons a
step can stop. -/

namespace Sys2Proof.Machine

/-- The engine's sequencing state `ST`, in the order of its codes 0 to 3 (R11). -/
inductive EngineSt where
  | awaitWord
  | emitPreamblePadding
  | emitStartAndByte
  | emitEndBit
  deriving DecidableEq, Repr

/-- The two-bit code of `ST` (R11). -/
def EngineSt.code : EngineSt → BitVec 2
  | .awaitWord => 0
  | .emitPreamblePadding => 1
  | .emitStartAndByte => 2
  | .emitEndBit => 3

/-- One registry entry: `cls`, `addr`, `len` and `bytes[0..3]` (R21). `bytes[0..len-1]` are the payload, the rest are
don't-care. -/
structure Entry where
  cls : Cls
  addr : BitVec 14
  len : BitVec 3
  b0 : Byte
  b1 : Byte
  b2 : Byte
  b3 : Byte
  deriving DecidableEq, Repr

/-- One action of the world around the core, a step of R46's total order (log 1). -/
inductive Stimulus where
  /-- The HOST presents a command word (R166). -/
  | cmd (w : CmdWord)
  /-- A test harness pushes one raw control word (R92). -/
  | push (w : Word)
  /-- A test harness enqueues raw control words (R93). -/
  | enqueue (ws : List Word)
  /-- A clock period passes (R149). -/
  | clock
  /-- The reset input is asserted (R200). -/
  | rst
  deriving DecidableEq, Repr

/-- What an operation returns to whoever invoked it (log 2). -/
inductive Ret where
  /-- Nothing has been returned yet. -/
  | none
  /-- The response of a command: bit 1 `ok`, bit 0 `pwr` (R74). -/
  | resp (r : BitVec 2)
  /-- A predicate's answer (R120 to R124). -/
  | flag (b : Bool)
  /-- One byte (R127, R129). -/
  | byte (b : Byte)
  /-- A list of bytes (R125, R126, R128). -/
  | bytes (bs : List Byte)
  /-- A list of control words (R130). -/
  | words (ws : List Word)
  /-- An index of REG, or NONE (R140). -/
  | index (k : Option Nat)
  deriving DecidableEq, Repr

/-- Everything spec/10_state.md gives the core, and two fields of the model's own (`port`, `ret`). -/
structure State where
  /-- RUN (R10). -/
  run : Bool
  /-- ST (R11). -/
  st : EngineSt
  /-- SR, left-aligned: the next bit to emit is bit 15 (R12). -/
  sr : BitVec 16
  /-- NBITS: bits of the current word not yet started (R13). -/
  nbits : BitVec 5
  /-- FINAL (R14). -/
  finalMark : Bool
  /-- CUR: the value of the bit now on the line (R15). -/
  cur : Bool
  /-- PHASE: false in the first half-cycle (R16). -/
  phase : Bool
  /-- HC: clocks that remain of the current half-cycle, the present one included (R17). -/
  hc : BitVec 7
  /-- LINE (R18). -/
  line : Bool
  /-- Q, oldest word first (R19). -/
  q : List Word
  /-- QOVF, sticky (R20). -/
  qovf : Bool
  /-- REG, oldest entry first (R21). -/
  reg : List Entry
  /-- CURSOR: index of the next entry to send (R23). -/
  cursor : BitVec 15
  /-- SCHED_RUN, also the output TIMER_EN (R24). -/
  schedRun : Bool
  /-- TCNT (R25). -/
  tcnt : BitVec 14
  /-- ANOM, sticky (R26). -/
  anom : Bool
  /-- ERR_FATAL, sticky (R27). -/
  errFatal : Bool
  /-- PWR, also the output BOOST_EN (R28). -/
  pwr : Bool
  /-- MODEL's own: the actions still to come, earliest first (log 1). -/
  port : List Stimulus
  /-- MODEL's own: what the last operation that returns something returned (log 2). -/
  ret : Ret
  deriving DecidableEq, Repr

/-- Why the machine stops with a fault: never. The hardware has no trap (R177), nothing in it is stuck (spec/93), and the
fatal configuration error latches ERR_FATAL while the hardware keeps running (R172), so no operation raises a fault
(log 14). -/
inductive Fault where
  deriving DecidableEq, Repr

/-- Why a step is refused. -/
inductive Refusal where
  /-- Raised by an arm of exec whose instruction has no meaning yet; none is left. Safe. -/
  | notModelled (mnemonic : String)
  /-- Raised by SET_SPEED and SET_FG1 (and EXEC_CMD of them) for a key that is absent when REG_N = REG_DEPTH: the spec
  says the model has no meaning for it and refuses it (R141 f, D10). Safe; unreachable from reset (log 13). -/
  | registryFull
  deriving DecidableEq, Repr

/-- The machine right after reset (R36); `port` and `ret` are the model's own (logs 1, 2). -/
def State.reset : State where
  run := false
  st := .awaitWord
  sr := 0
  nbits := 0
  finalMark := false
  cur := false
  phase := false
  hc := 0
  line := Config.lineResetLevel
  q := []
  qovf := false
  reg := []
  cursor := 0
  schedRun := false
  tcnt := 0
  anom := false
  errFatal := false
  pwr := false
  port := []
  ret := .none

end Sys2Proof.Machine
end

