-- ==== Sys2Proof/Machine/Flags.lean ====
section
/-! DEFINITION. Every flag the spec derives or writes (spec/10_state.md R33): the queue's flags, the sticky flags, the
response bits and the output pins. There are no condition codes (R33). -/

namespace Sys2Proof.Machine

/-! ## Derived flags -/

/-- `QCOUNT` (R19). -/
def qCount (s : State) : Nat := s.q.length
/-- `Q_EMPTY` (R19). -/
def qEmpty (s : State) : Bool := qCount s = 0
/-- `Q_FULL` (R19). -/
def qFull (s : State) : Bool := qCount s = Config.qDepth
/-- `Q_FREE` = 8 - QCOUNT (R19). -/
def qFree (s : State) : Nat := Config.qDepth - qCount s
/-- `REG_N` (R22). -/
def regN (s : State) : Nat := s.reg.length

/-! ## Sticky flags: set here, cleared by reset only (R20, R26, R27) -/

/-- `QOVF <- 1`. -/
def setQovf (s : State) : State := { s with qovf := true }
/-- `ANOM <- 1`. -/
def setAnom (s : State) : State := { s with anom := true }
/-- `ERR_FATAL <- 1`. -/
def setErrFatal (s : State) : State := { s with errFatal := true }

/-! ## What an operation returns -/

/-- `RESP`: bit 1 `ok`, bit 0 `pwr` (R74). -/
def respWord (ok pwr : Bool) : BitVec 2 := BitVec.ofBool ok ++ BitVec.ofBool pwr
/-- A command returns `ok`, and `pwr` as PWR is after it (R74, R166). -/
def respond (ok : Bool) (s : State) : State := { s with ret := .resp (respWord ok s.pwr) }
/-- A pure function returns its value and changes nothing else (R132). -/
def answer (r : Ret) (s : State) : State := { s with ret := r }

/-! ## Output pins (R181) -/

/-- `LINE_OE`: the line is always driven (R18). -/
def State.lineOe (_ : State) : Bool := true
/-- `BOOST_EN` = PWR (R28). -/
def State.boostEn (s : State) : Bool := s.pwr
/-- `TIMER_EN` = SCHED_RUN (R24). -/
def State.timerEn (s : State) : Bool := s.schedRun

/-- The level of every output pin but RESP (R181). -/
structure Pins where
  line : Bool
  lineOe : Bool
  boostEn : Bool
  anom : Bool
  qovf : Bool
  errFatal : Bool
  deriving DecidableEq, Repr

/-- What the world outside sees of a state (R181). -/
def State.pins (s : State) : Pins where
  line := s.line
  lineOe := s.lineOe
  boostEn := s.boostEn
  anom := s.anom
  qovf := s.qovf
  errFatal := s.errFatal

end Sys2Proof.Machine
end

