-- ==== Sys2Proof/Machine/Operands.lean ====
section
/-! DEFINITION. The packet encoder's pure functions (spec/41_encoder.md): operand validation, address framing,
instruction bytes, checksum and framing. They read no state and write none (R132). Outside the operands a rule names,
each follows its rule's own expression (log 8); FN_MASK has none there and answers a free value (log 9). -/

namespace Sys2Proof.Machine

/-! ## Validation (R120 to R124) -/

/-- `VALID_ADDR` (R120). -/
def validAddr (a : Addr) : Bool := Config.addrMin ≤ a.toNat && a.toNat ≤ Config.addrMax
/-- `VALID_SPEED` (R121). -/
def validSpeed (s : Byte) : Bool := s.toNat ≤ Config.speedMax
/-- `VALID_DIR` (R122). -/
def validDir (d : Byte) : Bool := d = Config.dirForward || d = Config.dirReverse
/-- `VALID_FN` (R123). -/
def validFn (i : Byte) : Bool := i.toNat ≤ Config.fnMax
/-- `VALID_STATE` (R124). -/
def validState (st : Byte) : Bool := st = 0 || st = 1

/-! ## Address framing and instruction bytes (R125 to R128) -/

/-- `ADDR_BYTES` (R125): one byte up to 127, else two, the high part first. -/
def addrBytes (a : Addr) : List Byte :=
  if a.toNat ≤ Config.addrShortMax then [a.extractLsb' 0 8]
  else [Config.longAddrMark ||| a.extractLsb' 8 8, a.extractLsb' 0 8]

/-- `DS_BYTE` (R126). -/
def dsByte (d s : Byte) : Byte :=
  (if d = Config.dirForward then Config.dirBitMask else 0) ||| (s &&& 0x7F)

/-- `ENC_SPEED` (R126). -/
def encSpeed (d s : Byte) : List Byte := [Config.speedSelector, dsByte d s]

/-- `FN_MASK`: the table of R127; a free value outside it (log 9). -/
def fnMask (i : Byte) : Byte :=
  match i.toNat with
  | 0 => 0x10
  | 1 => 0x01
  | 2 => 0x02
  | 3 => 0x04
  | 4 => 0x08
  | _ => Config.fnMaskOpen i

/-- The byte of `ENC_FG1` (R128). -/
def fg1Byte (i st : Byte) : Byte :=
  if st = 1 then Config.fg1Base ||| fnMask i else Config.fg1Base

/-- `ENC_FG1` (R128). -/
def encFg1 (i st : Byte) : List Byte := [fg1Byte i st]

/-! ## Checksum and framing (R129, R130) -/

/-- `CHECKSUM`: the XOR of all bytes, 0x00 of none (R129). -/
def checksum (p : List Byte) : Byte := p.foldl (fun c b => c ^^^ b) 0

/-- `PPW(b16)`: a preamble/padding word (R62). -/
def ppWord (b : BitVec 16) : Word := (1#32 <<< Config.ppBit) ||| b.zeroExtend 32
/-- `DBW(b)`: a data-byte word (R62). -/
def dbWord (b : Byte) : Word := b.zeroExtend 32
/-- `DBFW(b)`: a final data-byte word (R62). -/
def dbfWord (b : Byte) : Word := (1#32 <<< Config.fbBit) ||| b.zeroExtend 32

/-- `FRAME`: the preamble, one word a byte, the checksum with the final marker (R130). -/
def frame (p : List Byte) : List Word :=
  ppWord Config.preambleBits :: (p.map dbWord ++ [dbfWord (checksum p)])

end Sys2Proof.Machine
end

