-- ==== Sys2Proof/Machine/Ops.lean ====
section
/-! DEFINITION. The named operations over the two memories and the registers (spec/20_memory.md R53): raising an error,
the queue, the registry, the shift register, placing what the next step fetches. -/

namespace Sys2Proof.Machine

/-! ## Errors (R8, R170 to R178)

No error saves a state, changes a mode or transfers control, and there is no return instruction (R177, R178): raising
one is the whole of it, and the operation that raised it ends. -/

/-- The two errors the spec's pseudocode raises (R8). -/
inductive Error where
  /-- Tier 1: a command's operand is out of range (R171). -/
  | validationFailure
  /-- Tier 2: SEND was given more than 5 bytes (R172). -/
  | fatalConfig
  deriving DecidableEq, Repr

/-- `raise`: a validation failure returns `ok` = 0 and changes no state (R171); a fatal configuration error latches
ERR_FATAL and changes nothing else, and the hardware keeps running (R172, log 14). -/
def raise (e : Error) (s : State) : State :=
  match e with
  | .validationFailure => respond false s
  | .fatalConfig => setErrFatal s

/-! ## Run control (R90, R91) -/

/-- `START` (R90). -/
def startEngine (s : State) : State := { s with run := true }
/-- `STOP` freezes the engine: RUN and nothing else (R91, decision D7, log 15). -/
def stopEngine (s : State) : State := { s with run := false }

/-! ## The queue (R92, R93, R95) -/

/-- `Q_PUSH`: append, or drop the word and latch QOVF (R92). -/
def qPush (w : Word) (s : State) : State :=
  if qCount s < Config.qDepth then { s with q := s.q ++ [w] } else setQovf s

/-- `ENQUEUE`: the pushes in list order (R93). -/
def enqueue (ws : List Word) (s : State) : State := ws.foldl (fun t w => qPush w t) s

/-! ## The shift register (R96, R97) -/

/-- `half(b)`: 58 clocks for a `1` bit, 100 for a `0` bit (R108). -/
def half (b : Bool) : BitVec 7 :=
  if b then BitVec.ofNat 7 Config.halfOne else BitVec.ofNat 7 Config.halfZero

/-- `NBITS - 1`; a free value where NBITS is already 0, which no caller reaches (R96, R131 f, log 10). -/
def nbitsPred (s : State) : BitVec 5 :=
  if s.nbits = 0 then Config.shiftOutNbits s.sr else s.nbits - 1

/-- `SHIFT_OUT` (R96). -/
def shiftOut (s : State) : State :=
  { s with cur := s.sr.msb, sr := s.sr <<< 1, nbits := nbitsPred s }

/-- Loading the sixteen literal bits of a preamble/padding word (R97, first branch). -/
def loadPp (bits : BitVec 16) (s : State) : State :=
  { s with st := .emitPreamblePadding, sr := bits, nbits := Config.ppNBits, finalMark := false }

/-- Loading the nine bits of a data-byte word into SR[15:7] (R97, second branch). -/
def loadData (bits : BitVec 9) (fin : Bool) (s : State) : State :=
  { s with st := .emitStartAndByte, sr := (bits ++ 0#7 : BitVec 16), nbits := Config.dbNBits, finalMark := fin }

/-- `LOAD_WORD` (R97). -/
def loadWord (w : Word) (s : State) : State :=
  if w.getLsbD Config.ppBit then loadPp (w.extractLsb' 0 16) s
  else loadData (w.extractLsb' 0 9) (w.getLsbD Config.fbBit) s

/-! ## The registry (R21, R140 to R142) -/

/-- Whether an entry has this key (R140). A 16-bit address matches a stored 14-bit one as an unsigned value. -/
def Entry.hasKey (c : Cls) (a : Addr) (e : Entry) : Bool := e.cls = c && e.addr.toNat = a.toNat

/-- `REG_FIND`: the index of the entry with this key, or NONE (R140). -/
def regFind (c : Cls) (a : Addr) (reg : List Entry) : Option Nat := reg.findIdx? (Entry.hasKey c a)

/-- `bytes[k]` of an entry; a free value where the record has no such byte (log 11). -/
def Entry.byteAt (e : Entry) (k : Nat) : Byte :=
  match k with
  | 0 => e.b0
  | 1 => e.b1
  | 2 => e.b2
  | 3 => e.b3
  | _ => Config.overrunByte k

/-- `bytes[k] <- v`; a record has bytes 0 to 3 only (R21, log 12). -/
def Entry.setByte (k : Nat) (v : Byte) (e : Entry) : Entry :=
  match k with
  | 0 => { e with b0 := v }
  | 1 => { e with b1 := v }
  | 2 => { e with b2 := v }
  | 3 => { e with b3 := v }
  | _ => e

/-- `bytes[0 .. len-1]`: what TICK sends (R143). -/
def Entry.payload (e : Entry) : List Byte := (List.range e.len.toNat).map e.byteAt

/-- `bytes[len-1] <- f (bytes[len-1])`: the read-modify-write of the last payload byte (R48). An entry of length 0 has no
last byte (log 12). -/
def Entry.patchLast (f : Byte → Byte) (e : Entry) : Entry :=
  match e.len.toNat with
  | 0 => e
  | k + 1 => e.setByte k (f (e.byteAt k))

/-- A fresh entry `{cls, addr, len(p), p}`; the bytes beyond its payload are free values (R21, U15, log 11). -/
def freshEntry (c : Cls) (a : Addr) (p : List Byte) : Entry :=
  let addr := a.extractLsb' 0 14
  let byte := fun k => p.getD k (Config.spareByte c.code addr k)
  { cls := c, addr := addr, len := BitVec.ofNat 3 p.length, b0 := byte 0, b1 := byte 1, b2 := byte 2, b3 := byte 3 }

/-- What SET_SPEED and SET_FG1 do once their operands are valid: patch the last byte of the entry with this key, in
place, or append a fresh entry; refused where the registry is full (R141, R142, D10). -/
def regUpdate (c : Cls) (a : Addr) (patch : Byte → Byte) (fresh : List Byte) (s : State) :
    Host.Outcome State Fault Refusal :=
  match regFind c a s.reg with
  | some k => .next (respond true { s with reg := s.reg.modify k (Entry.patchLast patch) })
  | none =>
    if s.reg.length < Config.regDepth then
      .next (respond true { s with reg := s.reg ++ [freshEntry c a fresh] })
    else .refused .registryFull

/-! ## Reset (R200) -/

/-- Asserting `rst`: every register at its reset value whatever the state was (R200). The actions of the outside world
that come after it stay (log 1). -/
def resetCore (s : State) : State := { State.reset with port := s.port }

/-! ## Placing what the next step fetches (log 24) -/

/-- A command word on the port, first in line. -/
def placeCommand (w : CmdWord) (s : State) : State := { s with port := .cmd w :: s.port }

/-- A control word at the head of Q, the engine running and at the end of its current word, and a clock step next. -/
def placeControl (w : Word) (s : State) : State :=
  { s with
    port := .clock :: s.port
    q := w :: s.q.tail
    run := true
    nbits := 0
    finalMark := false
    phase := if s.hc = 0 then s.phase else true
    hc := if s.hc = 0 then 0 else 1 }

end Sys2Proof.Machine
end

