-- ==== Sys2Proof/Machine/Power.lean ====
section
/-! DEFINITION. The power controller (spec/43_power.md): POWER_ON, POWER_OFF, POWER_QUERY. -/

namespace Sys2Proof.Machine

/-- `POWER_ON` (R160): the same writes whether the power was off or on (decision D16). -/
def powerOn (s : State) : State :=
  let t := startEngine { s with pwr := true }
  respond true { t with cursor := 0, schedRun := true, tcnt := BitVec.ofNat 14 Config.tickPeriod }

/-- `POWER_OFF` (R161). -/
def powerOff (s : State) : State := respond true (stopEngine { s with pwr := false, schedRun := false })

/-- `POWER_QUERY` (R162): no state changes. -/
def powerQuery (s : State) : State := respond true s

/-- POWER_QUERY (R162); the other fields of the command word are ignored (R75 c). -/
def execPowerQuery (_reserved : BitVec 4) (_address : Addr) (_arg1 _arg2 : Byte) (s : State) :
    Host.Outcome State Fault Refusal := .next (powerQuery s)

/-- POWER_OFF (R161). -/
def execPowerOff (_reserved : BitVec 4) (_address : Addr) (_arg1 _arg2 : Byte) (s : State) :
    Host.Outcome State Fault Refusal := .next (powerOff s)

/-- POWER_ON (R160). -/
def execPowerOn (_reserved : BitVec 4) (_address : Addr) (_arg1 _arg2 : Byte) (s : State) :
    Host.Outcome State Fault Refusal := .next (powerOn s)

end Sys2Proof.Machine
end

