-- ==== Sys2Proof/Machine/Registry.lean ====
section
/-! DEFINITION. The registry operations (spec/42_registry_scheduler.md): REG_FIND, SET_SPEED, SET_FG1. -/

namespace Sys2Proof.Machine

/-- SET_SPEED on its operands (R141). -/
def setSpeed (a : Addr) (d v : Byte) (s : State) : Host.Outcome State Fault Refusal :=
  if (validAddr a && validDir d && validSpeed v) = false then .next (raise .validationFailure s)
  else regUpdate .speed a (fun _ => dsByte d v) (addrBytes a ++ encSpeed d v) s

/-- The patch of SET_FG1: OR the mask in for state 1, AND its complement for state 0 (R142). -/
def fg1Patch (i st b : Byte) : Byte :=
  if st = 1 then b ||| fnMask i else b &&& (0xFF ^^^ fnMask i)

/-- SET_FG1 on its operands (R142). -/
def setFg1 (a : Addr) (i st : Byte) (s : State) : Host.Outcome State Fault Refusal :=
  if (validAddr a && validFn i && validState st) = false then .next (raise .validationFailure s)
  else regUpdate .fg1 a (fg1Patch i st) (addrBytes a ++ encFg1 i st) s

/-- SET_SPEED (R141); the reserved bits of the command word are ignored (R75 c). -/
def execSetSpeed (_reserved : BitVec 4) (a : Addr) (d v : Byte) (s : State) : Host.Outcome State Fault Refusal :=
  setSpeed a d v s

/-- SET_FG1 (R142). -/
def execSetFg1 (_reserved : BitVec 4) (a : Addr) (i st : Byte) (s : State) : Host.Outcome State Fault Refusal :=
  setFg1 a i st s

/-- REG_FIND returns the index and changes nothing (R140). -/
def execRegFind (c : Cls) (a : Addr) (s : State) : Host.Outcome State Fault Refusal :=
  .next (answer (.index (regFind c a s.reg)) s)

end Sys2Proof.Machine
end

