-- ==== Sys2Proof/Machine/Command.lean ====
section
/-! DEFINITION. The command port's dispatch (spec/43_power.md R166) and the reserved operation codes (R75 a). -/

namespace Sys2Proof.Machine

/-- A reserved `op`: nothing changes, `ok` = 0 (R75 a, R166). -/
def reservedOp (s : State) : State := respond false s

/-- `EXEC_CMD` (R166). -/
def execCmdWord (w : CmdWord) (s : State) : Host.Outcome State Fault Refusal :=
  match (cmdOp w).toNat with
  | 0 => .next (powerQuery s)
  | 1 => .next (powerOff s)
  | 2 => .next (powerOn s)
  | 3 => setSpeed (cmdAddress w) (cmdArg1 w) (cmdArg2 w) s
  | 4 => setFg1 (cmdAddress w) (cmdArg1 w) (cmdArg2 w) s
  | _ => .next (reservedOp s)

/-- RESERVED_OP (R75 a). -/
def execReservedOp (_op _reserved : BitVec 4) (_address : Addr) (_arg1 _arg2 : Byte) (s : State) :
    Host.Outcome State Fault Refusal := .next (reservedOp s)

/-- EXEC_CMD (R166). -/
def execExecCmd (w : CmdWord) (s : State) : Host.Outcome State Fault Refusal := execCmdWord w s

end Sys2Proof.Machine
end

