-- ==== Sys2Proof/Machine/Engine.lean ====
section
/-! DEFINITION. The bitstream timing engine (spec/40_engine.md): START, STOP, Q_PUSH, ENQUEUE, ENGINE_CLOCK, NEXT_BIT,
SHIFT_OUT, LOAD_WORD. -/

namespace Sys2Proof.Machine

/-- `NEXT_BIT` (R95): continue the word, else the end bit, else fetch, else an underrun `0` bit. -/
def nextBit (s : State) : State :=
  if s.nbits ≠ 0 then shiftOut s
  else if s.st = .emitStartAndByte ∧ s.finalMark = true then
    { s with st := .emitEndBit, cur := true, finalMark := false }
  else
    match s.q with
    | w :: rest => shiftOut (loadWord w { s with q := rest })
    | [] => { s with st := .awaitWord, cur := false }

/-- The first half-cycle of the bit in CUR begins (R94, last branch, after NEXT_BIT). -/
def beginBit (s : State) : State := { s with phase := false, line := !s.line, hc := half s.cur }

/-- The second half-cycle of the bit in CUR begins (R94, second branch). -/
def beginSecondHalf (s : State) : State := { s with phase := true, line := !s.line, hc := half s.cur }

/-- `ENGINE_CLOCK` (R94). -/
def engineClock (s : State) : State :=
  if s.run = false then s
  else if 2 ≤ s.hc.toNat then { s with hc := s.hc - 1 }
  else if s.hc = 1 ∧ s.phase = false then beginSecondHalf s
  else beginBit (nextBit s)

/-- START (R90). -/
def execStart (s : State) : Host.Outcome State Fault Refusal := .next (startEngine s)

/-- STOP (R91). -/
def execStop (s : State) : Host.Outcome State Fault Refusal := .next (stopEngine s)

/-- Q_PUSH (R92). -/
def execQPush (w : Word) (s : State) : Host.Outcome State Fault Refusal := .next (qPush w s)

/-- ENQUEUE (R93). -/
def execEnqueue (ws : List Word) (s : State) : Host.Outcome State Fault Refusal := .next (enqueue ws s)

/-- ENGINE_CLOCK (R94). -/
def execEngineClock (s : State) : Host.Outcome State Fault Refusal := .next (engineClock s)

/-- NEXT_BIT (R95). -/
def execNextBit (s : State) : Host.Outcome State Fault Refusal := .next (nextBit s)

/-- SHIFT_OUT (R96). -/
def execShiftOut (s : State) : Host.Outcome State Fault Refusal := .next (shiftOut s)

/-- LOAD_WORD (R97). -/
def execLoadWord (w : Word) (s : State) : Host.Outcome State Fault Refusal := .next (loadWord w s)

end Sys2Proof.Machine
end

