-- ==== Sys2Proof/Machine/Control.lean ====
section
/-! DEFINITION. The control words as instructions (spec/40_engine.md R98 to R100): what the engine's fetch of one does to
the state, and the line bits it stands for. The fetch loads the word and starts its first bit (R95, third branch); its
later bits are emitted by the NEXT_BITs that follow (log 5). -/

namespace Sys2Proof.Machine

/-! ## The line-bit functions (R98 to R102, R211) -/

/-- `emit(w)`: the line bits of one control word (R98, R99, R100). -/
def emitWord (w : Word) : List Bool :=
  if w.getLsbD Config.ppBit then bitsOf (w.extractLsb' 0 16)
  else bitsOf (w.extractLsb' 0 9) ++ (if w.getLsbD Config.fbBit then [true] else [])

/-- `bits(ws)`: the line bits of a list of words (R102). -/
def lineBits (ws : List Word) : List Bool := ws.flatMap emitWord

/-- Clocks one line bit lasts: 116 or 200 (R211). -/
def bitClocks (b : Bool) : Nat := 2 * (half b).toNat

/-- Clocks a sequence of line bits lasts (R211). -/
def lineClocks (bs : List Bool) : Nat := (bs.map bitClocks).sum

/-! ## Fetching a word -/

/-- The engine fetches a preamble/padding word: LOAD_WORD, then SHIFT_OUT (R95, R98). The reserved bits are ignored. -/
def fetchPp (bits : BitVec 16) (s : State) : State := shiftOut (loadPp bits s)

/-- The engine fetches a data-byte word: LOAD_WORD, then SHIFT_OUT (R95, R99, R100). -/
def fetchData (start : BitVec 1) (data : Byte) (fin : Bool) (s : State) : State :=
  shiftOut (loadData (start ++ data) fin s)

/-- PP (R98). -/
def execPp (_reserved : BitVec 15) (bits : BitVec 16) (s : State) : Host.Outcome State Fault Refusal :=
  .next (fetchPp bits s)

/-- DB (R99). -/
def execDb (_reserved : BitVec 21) (start : BitVec 1) (data : Byte) (s : State) : Host.Outcome State Fault Refusal :=
  .next (fetchData start data false s)

/-- DBF (R100). -/
def execDbf (_reserved : BitVec 21) (start : BitVec 1) (data : Byte) (s : State) : Host.Outcome State Fault Refusal :=
  .next (fetchData start data true s)

/-- PREAMBLE: the PP word of all ones (R61, R98). -/
def execPreamble (_reserved : BitVec 15) (s : State) : Host.Outcome State Fault Refusal :=
  .next (fetchPp Config.preambleBits s)

/-- PAD: the PP word of all zeros (R61, R98). -/
def execPad (_reserved : BitVec 15) (s : State) : Host.Outcome State Fault Refusal :=
  .next (fetchPp 0 s)

end Sys2Proof.Machine
end

