-- ==== Sys2Proof/Machine/Encoder.lean ====
section
/-! DEFINITION. The ENCODER functions as operations (spec/41_encoder.md): each returns its value to its caller and
changes nothing else (R132, log 2). -/

namespace Sys2Proof.Machine

/-- VALID_ADDR (R120). -/
def execValidAddr (a : Addr) (s : State) : Host.Outcome State Fault Refusal := .next (answer (.flag (validAddr a)) s)

/-- VALID_SPEED (R121). -/
def execValidSpeed (v : Byte) (s : State) : Host.Outcome State Fault Refusal := .next (answer (.flag (validSpeed v)) s)

/-- VALID_DIR (R122). -/
def execValidDir (d : Byte) (s : State) : Host.Outcome State Fault Refusal := .next (answer (.flag (validDir d)) s)

/-- VALID_FN (R123). -/
def execValidFn (i : Byte) (s : State) : Host.Outcome State Fault Refusal := .next (answer (.flag (validFn i)) s)

/-- VALID_STATE (R124). -/
def execValidState (st : Byte) (s : State) : Host.Outcome State Fault Refusal := .next (answer (.flag (validState st)) s)

/-- ADDR_BYTES (R125). -/
def execAddrBytes (a : Addr) (s : State) : Host.Outcome State Fault Refusal := .next (answer (.bytes (addrBytes a)) s)

/-- ENC_SPEED (R126). -/
def execEncSpeed (d v : Byte) (s : State) : Host.Outcome State Fault Refusal := .next (answer (.bytes (encSpeed d v)) s)

/-- FN_MASK (R127). -/
def execFnMask (i : Byte) (s : State) : Host.Outcome State Fault Refusal := .next (answer (.byte (fnMask i)) s)

/-- ENC_FG1 (R128). -/
def execEncFg1 (i st : Byte) (s : State) : Host.Outcome State Fault Refusal := .next (answer (.bytes (encFg1 i st)) s)

/-- CHECKSUM (R129). -/
def execChecksum (p : List Byte) (s : State) : Host.Outcome State Fault Refusal := .next (answer (.byte (checksum p)) s)

/-- FRAME (R130). -/
def execFrame (p : List Byte) (s : State) : Host.Outcome State Fault Refusal := .next (answer (.words (frame p)) s)

end Sys2Proof.Machine
end

