-- ==== Sys2Proof/Machine/Sched.lean ====
section
/-! DEFINITION. The scheduler and the clock step (spec/42_registry_scheduler.md): SEND, TICK, TIMER_CLOCK, CLOCK_STEP.
TICK is the handler of the one interrupt (spec/60_exceptions.md R175); taking it saves nothing and there is no return
from it (R177, R178). -/

namespace Sys2Proof.Machine

/-- `SEND` (R144): fatal above 5 bytes, dropped whole where it does not fit, else its frame is enqueued. -/
def send (p : List Byte) (s : State) : State :=
  if Config.maxPayload < p.length then raise .fatalConfig s
  else if qFree s < p.length + 2 then setAnom s
  else enqueue (frame p) s

/-- The index TICK sends: CURSOR, or 0 where the pass is exhausted (R143). -/
def tickIndex (s : State) : BitVec 15 := if s.reg.length ≤ s.cursor.toNat then 0 else s.cursor

/-- `TICK` (R143): the idle packet from an empty registry, else the entry under the cursor, which advances. -/
def tick (s : State) : State :=
  match s.reg with
  | [] => send Config.idlePayload s
  | first :: _ =>
    let k := tickIndex s
    send (s.reg.getD k.toNat first).payload { s with cursor := k + 1 }

/-- `TIMER_CLOCK` (R148). -/
def timerClock (s : State) : State :=
  if s.schedRun = false then s
  else if 2 ≤ s.tcnt.toNat then { s with tcnt := s.tcnt - 1 }
  else tick { s with tcnt := BitVec.ofNat 14 Config.tickPeriod }

/-- `CLOCK_STEP` (R149): the engine first, then the timer. -/
def clockStep (s : State) : State := timerClock (engineClock s)

/-- TICK (R143). -/
def execTick (s : State) : Host.Outcome State Fault Refusal := .next (tick s)

/-- SEND (R144). -/
def execSend (p : List Byte) (s : State) : Host.Outcome State Fault Refusal := .next (send p s)

/-- TIMER_CLOCK (R148). -/
def execTimerClock (s : State) : Host.Outcome State Fault Refusal := .next (timerClock s)

/-- CLOCK_STEP (R149). -/
def execClockStep (s : State) : Host.Outcome State Fault Refusal := .next (clockStep s)

end Sys2Proof.Machine
end

