-- ==== Sys2Proof/Machine/Packet.lean ====
section
/-! DEFINITION. The wire packet layouts (spec/30_encoding.md R66). The hardware emits them and never decodes them: what
it does with one is the SEND of its payload (R144), whose words put exactly these bits on the line (R65; log 7). -/

namespace Sys2Proof.Machine

/-- PKT_SPEED_SHORT: payload `A, 0x3F, DS` (R66). -/
def execPktSpeedShort (a : BitVec 7) (d : BitVec 1) (v : BitVec 7) (s : State) : Host.Outcome State Fault Refusal :=
  .next (send [shortAddrByte a, Config.speedSelector, speedByte d v] s)

/-- PKT_SPEED_LONG: payload `0xC0 | (A>>8), A & 0xFF, 0x3F, DS` (R66). -/
def execPktSpeedLong (a : BitVec 14) (d : BitVec 1) (v : BitVec 7) (s : State) : Host.Outcome State Fault Refusal :=
  .next (send [longAddrHigh a, longAddrLow a, Config.speedSelector, speedByte d v] s)

/-- PKT_FG1_SHORT: payload `A, FG` (R66). -/
def execPktFg1Short (a : BitVec 7) (f : BitVec 5) (s : State) : Host.Outcome State Fault Refusal :=
  .next (send [shortAddrByte a, functionByte f] s)

/-- PKT_FG1_LONG: payload `0xC0 | (A>>8), A & 0xFF, FG` (R66). -/
def execPktFg1Long (a : BitVec 14) (f : BitVec 5) (s : State) : Host.Outcome State Fault Refusal :=
  .next (send [longAddrHigh a, longAddrLow a, functionByte f] s)

/-- PKT_IDLE: payload `0xFF, 0x00` (R145). -/
def execPktIdle (s : State) : Host.Outcome State Fault Refusal := .next (send Config.idlePayload s)

end Sys2Proof.Machine
end

