-- ==== Sys2Proof/Machine/Dispatch.lean ====
section
/-! DEFINITION. exec: one arm per constructor of Instr, each a direct call of its meaning. -/

namespace Sys2Proof.Machine

def exec (i : Instr) (s : State) : Host.Outcome State Fault Refusal :=
  match i with
  | .pp r b => Sys2Proof.Machine.execPp r b s
  | .db r x d => Sys2Proof.Machine.execDb r x d s
  | .dbf r x d => Sys2Proof.Machine.execDbf r x d s
  | .preamble r => Sys2Proof.Machine.execPreamble r s
  | .pad r => Sys2Proof.Machine.execPad r s
  | .powerQuery r a x y => Sys2Proof.Machine.execPowerQuery r a x y s
  | .powerOff r a x y => Sys2Proof.Machine.execPowerOff r a x y s
  | .powerOn r a x y => Sys2Proof.Machine.execPowerOn r a x y s
  | .setSpeed r a d v => Sys2Proof.Machine.execSetSpeed r a d v s
  | .setFg1 r a f x => Sys2Proof.Machine.execSetFg1 r a f x s
  | .reservedOp o r a x y => Sys2Proof.Machine.execReservedOp o r a x y s
  | .pktSpeedShort a d v => Sys2Proof.Machine.execPktSpeedShort a d v s
  | .pktSpeedLong a d v => Sys2Proof.Machine.execPktSpeedLong a d v s
  | .pktFg1Short a f => Sys2Proof.Machine.execPktFg1Short a f s
  | .pktFg1Long a f => Sys2Proof.Machine.execPktFg1Long a f s
  | .pktIdle => Sys2Proof.Machine.execPktIdle s
  | .start => Sys2Proof.Machine.execStart s
  | .stop => Sys2Proof.Machine.execStop s
  | .qPush w => Sys2Proof.Machine.execQPush w s
  | .enqueue ws => Sys2Proof.Machine.execEnqueue ws s
  | .engineClock => Sys2Proof.Machine.execEngineClock s
  | .nextBit => Sys2Proof.Machine.execNextBit s
  | .shiftOut => Sys2Proof.Machine.execShiftOut s
  | .loadWord w => Sys2Proof.Machine.execLoadWord w s
  | .validAddr a => Sys2Proof.Machine.execValidAddr a s
  | .validSpeed v => Sys2Proof.Machine.execValidSpeed v s
  | .validDir d => Sys2Proof.Machine.execValidDir d s
  | .validFn f => Sys2Proof.Machine.execValidFn f s
  | .validState x => Sys2Proof.Machine.execValidState x s
  | .addrBytes a => Sys2Proof.Machine.execAddrBytes a s
  | .encSpeed d v => Sys2Proof.Machine.execEncSpeed d v s
  | .fnMask f => Sys2Proof.Machine.execFnMask f s
  | .encFg1 f x => Sys2Proof.Machine.execEncFg1 f x s
  | .checksum p => Sys2Proof.Machine.execChecksum p s
  | .frame p => Sys2Proof.Machine.execFrame p s
  | .regFind c a => Sys2Proof.Machine.execRegFind c a s
  | .tick => Sys2Proof.Machine.execTick s
  | .send p => Sys2Proof.Machine.execSend p s
  | .timerClock => Sys2Proof.Machine.execTimerClock s
  | .clockStep => Sys2Proof.Machine.execClockStep s
  | .execCmd w => Sys2Proof.Machine.execExecCmd w s

end Sys2Proof.Machine
end

