-- ==== Sys2Proof/Machine/Step.lean ====
section
/-! DEFINITION. One step of the total order of spec/20_memory.md R46, and where the next instruction is placed. -/

namespace Sys2Proof.Machine

/-- The next action of the order: the first of the port, else a clock period (log 1). A command word is decoded and
executed (R166); a raw push or enqueue is that operation (R92, R93); a clock period is CLOCK_STEP (R149), in which the
engine fetches its control words; reset is reset (R200). -/
def step (s : State) : Host.Outcome State Fault Refusal :=
  match s.port with
  | [] => exec .clockStep s
  | .clock :: rest => exec .clockStep { s with port := rest }
  | .cmd w :: rest => exec (decodeCommand w) { s with port := rest }
  | .push w :: rest => exec (.qPush w) { s with port := rest }
  | .enqueue ws :: rest => exec (.enqueue ws) { s with port := rest }
  | .rst :: rest => .next (resetCore { s with port := rest })

/-- `s` with the instruction of bits `w` stored where step fetches it: a 40-bit command word on the port, a 32-bit
control word at the head of Q with the engine running at a word boundary (log 24). -/
def State.withFetchWord (s : State) (nbits w : Nat) : State :=
  match nbits with
  | 32 => placeControl (BitVec.ofNat 32 w) s
  | 40 => placeCommand (BitVec.ofNat 40 w) s
  | _ => s

end Sys2Proof.Machine
end

