-- ==== Sys2Proof/Safety.lean ====
section
/-! DEFINITION. What counts as a failed run, and the invariants of the core (spec/10_state.md R34), in the terms the
statements use. -/

namespace Sys2Proof.Machine

/-- A state the spec treats as a fault: ERR_FATAL = 1 (R172). It is never a good final state. -/
def State.Failed (s : State) : Prop := s.errFatal = true

/-- Nothing has been dropped and nothing has failed (R173): the premise of a claim that every command is transmitted. -/
def State.Clean (s : State) : Prop := s.anom = false ∧ s.qovf = false ∧ s.errFatal = false

/-- The key of an entry. -/
def Entry.key (e : Entry) : Cls × BitVec 14 := (e.cls, e.addr)

/-- The shape every entry the commands create has for ever (R150): a valid address, and the payload its class, its
address and its last byte determine. -/
def Entry.Ok (e : Entry) : Prop :=
  Config.addrMin ≤ e.addr.toNat ∧ e.addr.toNat ≤ Config.addrMax ∧
  match e.cls with
  | .speed => ∃ ds : Byte, e.payload = addrBytes (e.addr.zeroExtend 16) ++ [Config.speedSelector, ds]
  | .fg1 => ∃ f : BitVec 5, e.payload = addrBytes (e.addr.zeroExtend 16) ++ [functionByte f]

/-- The registry's canonical form: pairwise distinct keys, every entry of a shape of R150, no more than REG_DEPTH
entries (R21, R34 g, h). -/
structure RegOk (reg : List Entry) : Prop where
  keys : (reg.map Entry.key).Nodup
  entries : ∀ e ∈ reg, e.Ok
  depth : reg.length ≤ Config.regDepth

/-- The engine's part of R34: clauses (a) to (e). -/
structure State.EngineOk (s : State) : Prop where
  /-- (a), as a property of the state: while no half-cycle has begun the engine is as reset left it. -/
  fresh : s.hc = 0 → s.line = Config.lineResetLevel ∧ s.phase = false ∧ s.cur = false ∧ s.st = .awaitWord ∧ s.sr = 0
  /-- (b) the first half-cycle is high, the second low. -/
  level : s.hc ≠ 0 → s.line = !s.phase
  /-- (c) -/
  count : s.hc.toNat ≤ (half s.cur).toNat
  /-- (d) -/
  bits : s.nbits.toNat ≤ 16
  /-- (d) -/
  dataBits : s.st = .emitStartAndByte → s.nbits.toNat ≤ 8
  /-- (d) -/
  noBits : s.st = .awaitWord ∨ s.st = .emitEndBit → s.nbits = 0
  /-- (e) -/
  mark : s.finalMark = true → s.st = .emitStartAndByte

/-- The invariant of R34: clauses (a) to (e), then (f) to (k). -/
structure State.Inv (s : State) : Prop where
  engine : s.EngineOk
  /-- (f) -/
  queue : s.q.length ≤ Config.qDepth
  /-- (g), (h) -/
  registry : RegOk s.reg
  /-- (i) -/
  cursor : s.cursor.toNat ≤ s.reg.length
  /-- (j) -/
  power : s.run = s.pwr ∧ s.schedRun = s.pwr
  /-- (k) -/
  timer : s.schedRun = true → 1 ≤ s.tcnt.toNat ∧ s.tcnt.toNat ≤ Config.tickPeriod

/-- The engine stands at a word boundary: a bit has just ended (or none has begun), no bit of the current word is left and
no end bit is owed (R95, R42). -/
def State.AtWordBoundary (s : State) : Prop :=
  (s.hc = 0 ∨ (s.hc = 1 ∧ s.phase = true)) ∧ s.nbits = 0 ∧ ¬ (s.st = .emitStartAndByte ∧ s.finalMark = true)

/-- The next step begins a line bit: it is a clock period, the engine runs, and a bit has just ended or none has begun (R94). -/
def State.BeginsBit (s : State) : Prop :=
  (s.port = [] ∨ s.port.head? = some .clock) ∧ s.run = true ∧ (s.hc = 0 ∨ (s.hc = 1 ∧ s.phase = true))

/-- What the next step may append to Q: a raw push its word or nothing, a raw enqueue a first part of its words, a clock
period in which the tick is due the whole frame of the idle packet or of a registered entry or nothing, any other clock
period and a command nothing (R92, R93, R143, R144, R148). -/
def State.Offers (s : State) (ws : List Word) : Prop :=
  match s.port with
  | .push w :: _ => ws = [] ∨ ws = [w]
  | .enqueue vs :: _ => ws <+: vs
  | .cmd _ :: _ | .rst :: _ => ws = []
  | [] | .clock :: _ =>
    ws = [] ∨ (s.schedRun = true ∧ s.tcnt.toNat ≤ 1 ∧
      ∃ p : List Byte, ((s.reg = [] ∧ p = Config.idlePayload) ∨ ∃ e ∈ s.reg, p = e.payload) ∧ ws = frame p)

/-- The values of the next `n` line bits, in order, as NEXT_BIT chooses them with nothing pushed in between. -/
def nextBits : Nat → State → List Bool
  | 0, _ => []
  | n + 1, s =>
    match exec .nextBit s with
    | .next t => t.cur :: nextBits n t
    | .fault _ => []
    | .refused _ => []

/-- `n` executions of one instruction, stopping at the first fault or refusal. -/
def repeatExec (i : Instr) : Nat → State → Host.Outcome State Fault Refusal
  | 0, s => .next s
  | n + 1, s =>
    match exec i s with
    | .next t => repeatExec i n t
    | .fault r => .fault r
    | .refused r => .refused r

/-- The line bits the core still owes: the rest of the word in SR, the end bit if one is owed, every word in Q (R107,
R165). -/
def State.residue (s : State) : List Bool :=
  (bitsOf s.sr).take s.nbits.toNat ++
  (if s.st = .emitStartAndByte ∧ s.finalMark = true then [true] else []) ++
  lineBits s.q

/-- Clocks from now, the present one included, to the end of the bit on the line; one where no bit has begun. -/
def State.bitRest (s : State) : Nat :=
  if s.hc = 0 then 1 else s.hc.toNat + (if s.phase then 0 else (half s.cur).toNat)

/-- What the core owes is on the line before the next tick: always so under the nominal timer when no harness pushes raw
words (R205). -/
def State.Paced (s : State) : Prop :=
  s.residue = [] ∨
  s.bitRest + lineClocks s.residue ≤ (if s.schedRun then s.tcnt.toNat else Config.tickPeriod)

/-- The action at the head of the port is not a raw push of a test harness. -/
def State.NoRawPush (s : State) : Prop :=
  match s.port with
  | .push _ :: _ => False
  | .enqueue _ :: _ => False
  | _ => True

/-- The instructions by which HOST and TIMER act, and the pure functions: every one but the control words and the
engine's own operations (R106). -/
def producer : Instr → Bool
  | .pp _ _ | .db _ _ _ | .dbf _ _ _ | .preamble _ | .pad _ => false
  | .engineClock | .nextBit | .shiftOut | .loadWord _ | .clockStep => false
  | .powerQuery _ _ _ _ | .powerOff _ _ _ _ | .powerOn _ _ _ _ => true
  | .setSpeed _ _ _ _ | .setFg1 _ _ _ _ | .reservedOp _ _ _ _ _ => true
  | .pktSpeedShort _ _ _ | .pktSpeedLong _ _ _ | .pktFg1Short _ _ | .pktFg1Long _ _ | .pktIdle => true
  | .start | .stop | .qPush _ | .enqueue _ => true
  | .validAddr _ | .validSpeed _ | .validDir _ | .validFn _ | .validState _ | .addrBytes _ => true
  | .encSpeed _ _ | .fnMask _ | .encFg1 _ _ | .checksum _ | .frame _ | .regFind _ _ => true
  | .tick | .send _ | .timerClock | .execCmd _ => true

/-- The instructions that may change the power state (R163). -/
def powerCommand : Instr → Bool
  | .powerOn _ _ _ _ | .powerOff _ _ _ _ => true
  | .execCmd w => cmdOp w = 1 || cmdOp w = 2
  | .pp _ _ | .db _ _ _ | .dbf _ _ _ | .preamble _ | .pad _ => false
  | .powerQuery _ _ _ _ | .setSpeed _ _ _ _ | .setFg1 _ _ _ _ | .reservedOp _ _ _ _ _ => false
  | .pktSpeedShort _ _ _ | .pktSpeedLong _ _ _ | .pktFg1Short _ _ | .pktFg1Long _ _ | .pktIdle => false
  | .start | .stop | .qPush _ | .enqueue _ | .engineClock | .nextBit | .shiftOut | .loadWord _ => false
  | .validAddr _ | .validSpeed _ | .validDir _ | .validFn _ | .validState _ | .addrBytes _ => false
  | .encSpeed _ _ | .fnMask _ | .encFg1 _ _ | .checksum _ | .frame _ | .regFind _ _ => false
  | .tick | .send _ | .timerClock | .clockStep => false

/-- The engine's own registers are the same in two states (R106, R182). -/
def SameEngine (s t : State) : Prop :=
  t.st = s.st ∧ t.sr = s.sr ∧ t.nbits = s.nbits ∧ t.finalMark = s.finalMark ∧ t.cur = s.cur ∧ t.phase = s.phase ∧
  t.hc = s.hc ∧ t.line = s.line

end Sys2Proof.Machine
end

