-- ==== Sys2Proof/Certificates/Slice0/Obligations.lean ====
section
/-! DEFINITION. The statements for the provers, one def Obligations.<Name> : Prop each. A docstring names the rules of
spec/ a statement formalises; "decision D<n>" marks a clause that rests on a choice the spec makes for itself. -/

open Sys2Proof Sys2Proof.Machine

/-! ## Encodings -/

/-- Decoding what the encoder writes gives the instruction back, for every control word and every command word, with
every operand at every value (R61 to R63, R72, R73; positions by decisions D2 and D14, names PREAMBLE and PAD by log 6). -/
def Obligations.DecodeOfEncodeIsIdentity : Prop :=
  ∀ i : Instr, wellFormed i = true →
    (∀ w, encode i = some (.control w) → decode (.control w) = .ok i) ∧
    (∀ w, encode i = some (.command w) → decode (.command w) = .ok i)

/-- Every 32-bit value and every 40-bit value is the encoding of the one well-formed instruction it decodes to: no word is
illegal and no bit is dropped (R63, R75). -/
def Obligations.EncodeOfDecodeIsIdentity : Prop :=
  (∀ w : Word, wellFormed (decodeControl w) = true ∧ encode (decodeControl w) = some (.control w)) ∧
  (∀ w : CmdWord, wellFormed (decodeCommand w) = true ∧ encode (decodeCommand w) = some (.command w))

/-- Words written out in spec/95_test_vectors.md decode to the instructions they stand for there. -/
def Obligations.SpecWordsDecode : Prop :=
  decodeControl 0x8000FFFF = .preamble 0 ∧ decodeControl 0x80000000 = .pad 0 ∧
  decodeControl 0x8000A5C3 = .pp 0 0xA5C3 ∧ decodeControl 0x00000003 = .db 0 0 0x03 ∧
  decodeControl 0x4000008E = .dbf 0 0 0x8E ∧ decodeControl 0x000001FF = .db 0 1 0xFF ∧
  decodeCommand 0x3000030132 = .setSpeed 0 3 1 50 ∧ decodeCommand 0x4027FF0401 = .setFg1 0 0x27FF 4 1 ∧
  decodeCommand 0x2000000000 = .powerOn 0 0 0 0 ∧ decodeCommand 0x1000000000 = .powerOff 0 0 0 0 ∧
  decodeCommand 0x0000000000 = .powerQuery 0 0 0 0 ∧ decodeCommand 0xF123456789 = .reservedOp 0xF 1 0x2345 0x67 0x89

/-- Reserved bits are ignored: two control words of one format that differ in reserved bits only do the same, and so do
two command words that differ in bits 35:32 only (R61, R62, R75 c; decisions D3 and D14). -/
def Obligations.ReservedBitsAreIgnored : Prop :=
  (∀ (w v : Word) (s : State),
    w.getLsbD 31 = true → v.getLsbD 31 = true → w.extractLsb' 0 16 = v.extractLsb' 0 16 →
    exec (decodeControl w) s = exec (decodeControl v) s) ∧
  (∀ (w v : Word) (s : State),
    w.getLsbD 31 = false → v.getLsbD 31 = false → w.getLsbD 30 = v.getLsbD 30 →
    w.extractLsb' 0 9 = v.extractLsb' 0 9 →
    exec (decodeControl w) s = exec (decodeControl v) s) ∧
  (∀ (w v : CmdWord) (s : State),
    w.extractLsb' 36 4 = v.extractLsb' 36 4 → w.extractLsb' 0 32 = v.extractLsb' 0 32 →
    exec (decodeCommand w) s = exec (decodeCommand v) s)

/-- A packet layout of the table (PKT_SPEED_SHORT, PKT_SPEED_LONG, PKT_FG1_SHORT, PKT_FG1_LONG, PKT_IDLE) stands for control words whose line bits are the layout, and executing it enqueues
exactly those words where all fit, and drops them all and latches ANOM where they do not, changing nothing else
(R65, R66, R144; the meaning of a layout is log 7, whole-packet drop is decision D9). -/
def Obligations.WireLayoutsAreWhatIsEnqueued : Prop :=
  ∀ (i : Instr) (bits : List Bool), encode i = some (.wire bits) →
    ∃ ws : List Word, 4 ≤ ws.length ∧ ws.length ≤ 6 ∧ lineBits ws = bits ∧
      ∀ s : State,
        (s.q.length + ws.length ≤ 8 → exec i s = .next { s with q := s.q ++ ws }) ∧
        (8 < s.q.length + ws.length → exec i s = .next { s with anom := true })

/-! ## A step runs the decoded instruction -/

/-- With a command word on the port, a step executes the instruction it decodes to, on the state without that word
(R166; the port is log 1). -/
def Obligations.StepExecutesTheCommand : Prop :=
  ∀ (s : State) (w : CmdWord) (rest : List Stimulus), s.port = .cmd w :: rest →
    step s = exec (decodeCommand w) { s with port := rest }

/-- At a word boundary with a word queued, a clock step fetches the head of Q and executes the instruction it decodes to;
around it the step starts the bit's first half-cycle and then runs the timer (R94, R95, R97, R149; D12 for the order). That
the fetch is the execution of the decoded control word is DEDUCED, log 5; the clock step as the head of `port`, or an empty
`port`, is log 1. -/
def Obligations.ClockStepFetchesTheControlWord : Prop :=
  ∀ (s : State) (w : Word) (rest : List Word), s.port = [] ∨ s.port.head? = some .clock →
    s.run = true → s.AtWordBoundary → s.q = w :: rest →
    ∃ t : State, exec (decodeControl w) { s with port := s.port.tail, q := rest } = .next t ∧
      step s = exec .timerClock { t with phase := false, line := !s.line, hc := if t.cur then 58 else 100 }

/-- The other actions of the total order: a clock period (also when the port is empty) is CLOCK_STEP, a raw push is
Q_PUSH, a raw enqueue is ENQUEUE, reset is the reset state (R46, R200; the port is log 1). -/
def Obligations.StepTakesTheOtherActions : Prop :=
  ∀ (s : State) (rest : List Stimulus),
    (s.port = [] → step s = exec .clockStep s) ∧
    (s.port = .clock :: rest → step s = exec .clockStep { s with port := rest }) ∧
    (∀ w, s.port = .push w :: rest → step s = exec (.qPush w) { s with port := rest }) ∧
    (∀ ws, s.port = .enqueue ws :: rest → step s = exec (.enqueue ws) { s with port := rest }) ∧
    (s.port = .rst :: rest → step s = .next { State.reset with port := rest })

/-! ## The engine -/

/-- START sets RUN and STOP clears it; neither changes anything else (R90, R91; freezing is decision D7). -/
def Obligations.StartAndStopWriteRunOnly : Prop :=
  ∀ s : State, exec .start s = .next { s with run := true } ∧ exec .stop s = .next { s with run := false }

/-- Q_PUSH appends the word where there is room, else drops it and latches QOVF; nothing else changes (R92,
decision D8). -/
def Obligations.PushAppendsOrLatchesOverflow : Prop :=
  ∀ (w : Word) (s : State),
    (s.q.length < 8 → exec (.qPush w) s = .next { s with q := s.q ++ [w] }) ∧
    (8 ≤ s.q.length → exec (.qPush w) s = .next { s with qovf := true })

/-- ENQUEUE appends exactly the first min(len, Q_FREE) words in order, and latches QOVF where some did not fit; nothing
else changes (R93; the surplus by decision D8). -/
def Obligations.EnqueueAppendsWhatFits : Prop :=
  ∀ (ws : List Word) (s : State),
    exec (.enqueue ws) s =
      .next { s with
        q := s.q ++ ws.take (8 - s.q.length)
        qovf := s.qovf || decide (8 - s.q.length < ws.length) }

/-- ENGINE_CLOCK in each of its four cases: stopped, inside a half-cycle, end of the first half-cycle, bit boundary
(R94; one clock a microsecond is decision D1). -/
def Obligations.EngineClockCases : Prop :=
  ∀ s : State,
    (s.run = false → exec .engineClock s = .next s) ∧
    (s.run = true → 2 ≤ s.hc.toNat → exec .engineClock s = .next { s with hc := s.hc - 1 }) ∧
    (s.run = true → s.hc = 1 → s.phase = false →
      exec .engineClock s = .next { s with phase := true, line := !s.line, hc := if s.cur then 58 else 100 }) ∧
    (s.run = true → (s.hc = 0 ∨ (s.hc = 1 ∧ s.phase = true)) →
      ∃ t : State, exec .nextBit s = .next t ∧
        exec .engineClock s = .next { t with phase := false, line := !s.line, hc := if t.cur then 58 else 100 })

/-- NEXT_BIT in each of its four cases, in the order of their precedence: word bits, end bit, fetch, underrun (R95,
R176 e). -/
def Obligations.NextBitCases : Prop :=
  ∀ s : State,
    (s.nbits ≠ 0 → ∃ u : State, exec .shiftOut s = .next u ∧ exec .nextBit s = .next u) ∧
    (s.nbits = 0 → s.st = .emitStartAndByte → s.finalMark = true →
      exec .nextBit s = .next { s with st := .emitEndBit, cur := true, finalMark := false }) ∧
    (s.nbits = 0 → ¬ (s.st = .emitStartAndByte ∧ s.finalMark = true) → ∀ w rest, s.q = w :: rest →
      ∃ t u : State, exec (.loadWord w) { s with q := rest } = .next t ∧ exec .shiftOut t = .next u ∧
        exec .nextBit s = .next u) ∧
    (s.nbits = 0 → ¬ (s.st = .emitStartAndByte ∧ s.finalMark = true) → s.q = [] →
      exec .nextBit s = .next { s with st := .awaitWord, cur := false })

/-- SHIFT_OUT starts the bit SR[15]; with no bit left the value of NBITS after it is free and the rest is the same (R96;
the free value is log 10). -/
def Obligations.ShiftOutStartsTheTopBit : Prop :=
  ∀ s : State,
    (s.nbits ≠ 0 →
      exec .shiftOut s = .next { s with cur := s.sr.getLsbD 15, sr := s.sr <<< 1, nbits := s.nbits - 1 }) ∧
    (s.nbits = 0 → ∃ n : BitVec 5,
      exec .shiftOut s = .next { s with cur := s.sr.getLsbD 15, sr := s.sr <<< 1, nbits := n })

/-- LOAD_WORD of either format (R97; positions by decision D2, ignored bits by D3). -/
def Obligations.LoadWordByFormat : Prop :=
  ∀ (w : Word) (s : State),
    (w.getLsbD 31 = true → exec (.loadWord w) s =
      .next { s with st := .emitPreamblePadding, sr := w.extractLsb' 0 16, nbits := 16, finalMark := false }) ∧
    (w.getLsbD 31 = false → exec (.loadWord w) s =
      .next { s with
        st := .emitStartAndByte, sr := w.extractLsb' 0 9 ++ 0#7, nbits := 9, finalMark := w.getLsbD 30 })

/-- The fetch of a control word (PP, PREAMBLE, PAD, DB, DBF) loads it and starts its first bit; PREAMBLE and PAD are PP
words; nothing else changes (R95, R98, R99, R100). The model's and the spec's choices in it: the reserved bits are ignored
by decision D3, bit 8 is emitted as given by D5, the order of the PP bits is D4 (log 4 for the three), and that executing a
control word is its fetch is log 5. -/
def Obligations.ControlWordsStartTheirFirstBit : Prop :=
  ∀ (s : State) (r : BitVec 15) (x : BitVec 21) (b : BitVec 16) (start : BitVec 1) (data : Byte),
    exec (.pp r b) s = .next { s with
      st := .emitPreamblePadding, sr := b <<< 1, nbits := 15, finalMark := false, cur := b.getLsbD 15 } ∧
    exec (.preamble r) s = .next { s with
      st := .emitPreamblePadding, sr := 0xFFFE, nbits := 15, finalMark := false, cur := true } ∧
    exec (.pad r) s = .next { s with
      st := .emitPreamblePadding, sr := 0, nbits := 15, finalMark := false, cur := false } ∧
    exec (.db x start data) s = .next { s with
      st := .emitStartAndByte, sr := data ++ 0#8, nbits := 8, finalMark := false, cur := start.getLsbD 0 } ∧
    exec (.dbf x start data) s = .next { s with
      st := .emitStartAndByte, sr := data ++ 0#8, nbits := 8, finalMark := true, cur := start.getLsbD 0 }

/-- The bit values (CUR) that repeated NEXT_BITs choose, with nothing pushed in between, are the rest of the word in SR, the
end bit if one is owed, the bits of every queued word in order, and then `0` bits for ever: nothing lost, added, reordered or
repeated (R98 to R102, R105, R107). The order of PP bits, bit 8 as given and no end bit after a PP word are decisions D4, D5
and D3 (log 4). -/
def Obligations.LineCarriesExactlyWhatIsOwed : Prop :=
  ∀ (s : State) (k : Nat), s.nbits.toNat ≤ 16 →
    nextBits (s.residue.length + k) s = s.residue ++ List.replicate k false

/-- Every step keeps the stream: what the core owes the line (`State.residue`) loses its first bit exactly when a line bit
begins, that bit is then CUR, and it gains at its end exactly the bits of the words the step appends to Q; a bit begun with
nothing owed is a `0`. The head leaves Q only at a word boundary of a running engine in a clock period, and a step appends
only what its action offers (R46 a, R105, R107, R92, R93, R144). Drops of surplus words and packets are decisions D8 and D9
(log 21), the engine before the timer is D12 (log 16), the line bits of a word rest on D3, D4 and D5 (log 4), the order of
actions in `port` is log 1. -/
def Obligations.WordsGoOutOnceAndInOrder : Prop :=
  ∀ s t : State, s.Inv → s.port.head? ≠ some .rst → step s = .next t →
    ∃ ws : List Word, s.Offers ws ∧
      (¬ s.BeginsBit → t.cur = s.cur ∧ t.q = s.q ++ ws ∧ t.residue = s.residue ++ lineBits ws) ∧
      (s.BeginsBit → s.residue = [] → t.cur = false ∧ t.q = s.q ++ ws ∧ t.residue = lineBits ws) ∧
      (s.BeginsBit → ∀ b rest, s.residue = b :: rest →
        t.cur = b ∧ t.residue = rest ++ lineBits ws ∧
        (¬ s.AtWordBoundary → t.q = s.q ++ ws) ∧ (s.AtWordBoundary → t.q = s.q.tail ++ ws))

/-- The waveform of one bit: from its start LINE holds for half(b) clocks, inverts, and holds for half(b) clocks, with
nothing else changed but HC and PHASE, ending in the last clock before the next boundary (R103, R94). -/
def Obligations.OneBitIsTwoEqualHalfCycles : Prop :=
  ∀ (s : State) (h : Nat), s.run = true → s.phase = false → h = (if s.cur then 58 else 100) → s.hc.toNat = h →
    ∀ j < h,
      repeatExec .engineClock j s = .next { s with hc := BitVec.ofNat 7 (h - j) } ∧
      repeatExec .engineClock (h + j) s =
        .next { s with hc := BitVec.ofNat 7 (h - j), phase := true, line := !s.line }

/-- Never stalls: while the engine runs and only clock steps come, LINE inverts within 100 steps whatever else the core is
doing (R104). -/
def Obligations.RunningLineInvertsWithinAHundredClocks : Prop :=
  ∀ s : State, s.Inv → s.run = true → s.port = [] →
    ∃ n t, 1 ≤ n ∧ n ≤ 100 ∧ Sys2Proof.core.run n s = .next t ∧ t.line = !s.line

/-- Underrun: at a word boundary with an empty queue the running engine begins a whole `0` bit, and no flag is set
(R101, R174; whole bits are decision D25). -/
def Obligations.UnderrunBeginsAZeroBit : Prop :=
  ∀ s : State, s.run = true → s.AtWordBoundary → s.q = [] →
    exec .engineClock s =
      .next { s with st := .awaitWord, cur := false, phase := false, line := !s.line, hc := 100 }

/-- No HOST command, no tick, no timer clock and no pure function touches the engine's registers: producers act on the
engine through Q and RUN only (R106). -/
def Obligations.ProducersLeaveTheEngineAlone : Prop :=
  ∀ (i : Instr) (s t : State), producer i = true → exec i s = .next t → SameEngine s t

/-- A step other than reset leaves all the queued words, or all but the head, at the front of Q and in their order (R46 a,
R107, R19). What may follow them, and when the head leaves, is the statement WordsGoOutOnceAndInOrder. -/
def Obligations.StepKeepsTheQueueInOrder : Prop :=
  ∀ s t : State, s.port.head? ≠ some .rst → step s = .next t →
    ∃ ws : List Word, t.q = s.q ++ ws ∨ t.q = s.q.tail ++ ws

/-! ## The encoder -/

/-- The four range checks whose operands the source gives (VALID_ADDR, VALID_SPEED, VALID_FN, VALID_STATE): each returns its predicate and changes no state (R120, R121,
R123, R124). -/
def Obligations.RangeChecksAnswerTheirRanges : Prop :=
  ∀ (a : Addr) (v : Byte) (s : State),
    exec (.validAddr a) s = .next { s with ret := .flag (decide (1 ≤ a.toNat ∧ a.toNat ≤ 10239)) } ∧
    exec (.validSpeed v) s = .next { s with ret := .flag (decide (v.toNat ≤ 127)) } ∧
    exec (.validFn v) s = .next { s with ret := .flag (decide (v.toNat ≤ 4)) } ∧
    exec (.validState v) s = .next { s with ret := .flag (decide (v.toNat = 0 ∨ v.toNat = 1)) }

/-- ADDR_BYTES of a valid address: one byte equal to it up to 127; else two, 0xC0 OR the high part (0xC0 to 0xE7) and the
low part; different valid addresses have different bytes (R125). -/
def Obligations.AddressBytesByRange : Prop :=
  (∀ (a : Addr) (s : State), 1 ≤ a.toNat → a.toNat ≤ 127 →
    exec (.addrBytes a) s = .next { s with ret := .bytes [BitVec.ofNat 8 a.toNat] }) ∧
  (∀ (a : Addr) (s : State), 128 ≤ a.toNat → a.toNat ≤ 10239 →
    exec (.addrBytes a) s =
      .next { s with ret := .bytes [BitVec.ofNat 8 (0xC0 + a.toNat / 256), BitVec.ofNat 8 (a.toNat % 256)] } ∧
    0xC0 + a.toNat / 256 ≤ 0xE7) ∧
  (∀ (a b : Addr) (s : State), 1 ≤ a.toNat → a.toNat ≤ 10239 → 1 ≤ b.toNat → b.toNat ≤ 10239 →
    exec (.addrBytes a) s = exec (.addrBytes b) s → a = b)

/-- VALID_DIR holds of the two direction codes 1 and 0 and of no other; ENC_SPEED of a valid direction and speed is the
selector, then 0x80 for forward plus the speed (R122, R126; the direction codes are decision D13). -/
def Obligations.DirectionCodesAndSpeedBytes : Prop :=
  (∀ (d : Byte) (s : State),
    exec (.validDir d) s = .next { s with ret := .flag (decide (d.toNat = 1 ∨ d.toNat = 0)) }) ∧
  (∀ (v : Byte) (s : State), v.toNat ≤ 127 →
    exec (.encSpeed 1 v) s = .next { s with ret := .bytes [0x3F, BitVec.ofNat 8 (128 + v.toNat)] } ∧
    exec (.encSpeed 0 v) s = .next { s with ret := .bytes [0x3F, v] })

/-- FN_MASK is the source's table, and its masks are distinct single bits outside bits 7:5 (R127). -/
def Obligations.FunctionMaskIsTheTable : Prop :=
  (∀ s : State,
    exec (.fnMask 0) s = .next { s with ret := .byte 0x10 } ∧ exec (.fnMask 1) s = .next { s with ret := .byte 0x01 } ∧
    exec (.fnMask 2) s = .next { s with ret := .byte 0x02 } ∧ exec (.fnMask 3) s = .next { s with ret := .byte 0x04 } ∧
    exec (.fnMask 4) s = .next { s with ret := .byte 0x08 }) ∧
  (∀ (i : Byte) (s : State), i.toNat ≤ 4 →
    exec (.fnMask i) s = .next { s with ret := .byte (if i = 0 then 0x10 else 1#8 <<< (i.toNat - 1)) }) ∧
  (∀ (i : Byte) (s : State), i.toNat ≤ 4 → ∃ k < 5,
    exec (.fnMask i) s = .next { s with ret := .byte (1#8 <<< k) }) ∧
  (∀ (i j : Byte) (s : State), i.toNat ≤ 4 → j.toNat ≤ 4 → exec (.fnMask i) s = exec (.fnMask j) s → i = j)

/-- FN_MASK of an index outside its table completes too: only the byte it returns is open, and no state changes (R132; the
rule names no such operand, and the free value is the model's choice, log 9). -/
def Obligations.FunctionMaskCompletesOutsideItsTable : Prop :=
  ∀ i : Byte, 4 < i.toNat → ∃ b : Byte, ∀ s : State, exec (.fnMask i) s = .next { s with ret := .byte b }

/-- ENC_FG1 of a valid index and state: 0x80 with the index's mask for state 1, 0x80 for state 0 (R128). -/
def Obligations.FunctionGroupInstructionByte : Prop :=
  ∀ s : State,
    exec (.encFg1 0 1) s = .next { s with ret := .bytes [0x90] } ∧
    exec (.encFg1 1 1) s = .next { s with ret := .bytes [0x81] } ∧
    exec (.encFg1 2 1) s = .next { s with ret := .bytes [0x82] } ∧
    exec (.encFg1 3 1) s = .next { s with ret := .bytes [0x84] } ∧
    exec (.encFg1 4 1) s = .next { s with ret := .bytes [0x88] } ∧
    ∀ i : Byte, i.toNat ≤ 4 → exec (.encFg1 i 0) s = .next { s with ret := .bytes [0x80] }

/-- CHECKSUM is the XOR of all bytes, in any folding order, and a list with its checksum appended sums to zero (R129, R131, R70;
the empty list is decision D24). The rules give the operand 0 to 5 bytes; that a longer list follows the same expression is
the model's choice, log 8. -/
def Obligations.ChecksumIsTheXorOfAllBytes : Prop :=
  ∀ (p : List Byte) (s : State),
    exec (.checksum p) s = .next { s with ret := .byte (p.foldr (fun b c => b ^^^ c) 0) } ∧
    (∀ p' : List Byte, p.Perm p' → exec (.checksum p') s = exec (.checksum p) s) ∧
    exec (.checksum (p ++ [p.foldr (fun b c => b ^^^ c) 0])) s = .next { s with ret := .byte 0 }

/-- FRAME is the preamble word, one word a payload byte, and the checksum with the final marker, len + 2 words; their line
bits are the wire format: sixteen ones, each byte after a zero start bit, the checksum last, one end bit (R130, R65, R102;
marker positions by decision D2). R130 gives the payload 0 to 5 bytes; that a longer one follows the same expression is the
model's choice, log 8. -/
def Obligations.FrameIsTheWireFormat : Prop :=
  ∀ (p : List Byte) (s : State), ∃ ws : List Word,
    exec (.frame p) s = .next { s with ret := .words ws } ∧ ws.length = p.length + 2 ∧
    ws = 0x8000FFFF#32 :: (p.map (fun b => 0#24 ++ b) ++ [0x400000#24 ++ p.foldr (fun b c => b ^^^ c) 0]) ∧
    lineBits ws = List.replicate 16 true ++
      (p ++ [p.foldr (fun b c => b ^^^ c) 0]).flatMap (fun b => false :: bitsOf b) ++ [true]

/-! ## The registry -/

/-- REG_FIND returns an index whose entry has the key, or NONE where no entry has it, and changes nothing (R140, R44). That it
answers the first of several entries with the key, and that an address that is not valid gets an answer too, is the model's
choice, log 20. -/
def Obligations.RegFindAnswersTheKeysIndex : Prop :=
  ∀ (c : Cls) (a : Addr) (s : State), ∃ r : Option Nat,
    exec (.regFind c a) s = .next { s with ret := .index r } ∧
    (∀ k, r = some k →
      (∃ e, s.reg[k]? = some e ∧ e.cls = c ∧ e.addr.toNat = a.toNat) ∧
      ∀ j e, j < k → s.reg[j]? = some e → ¬ (e.cls = c ∧ e.addr.toNat = a.toNat)) ∧
    (r = none → ∀ e ∈ s.reg, ¬ (e.cls = c ∧ e.addr.toNat = a.toNat))

/-- An invalid operand: SET_SPEED and SET_FG1 return ok = 0 and change no state (R171, R141, R142; direction codes by
decision D13). -/
def Obligations.InvalidOperandsChangeNothing : Prop :=
  (∀ (s : State) (r : BitVec 4) (a : Addr) (d v : Byte),
    a.toNat = 0 ∨ 10239 < a.toNat ∨ 1 < d.toNat ∨ 127 < v.toNat →
    exec (.setSpeed r a d v) s = .next { s with ret := .resp (0#1 ++ BitVec.ofBool s.pwr) }) ∧
  (∀ (s : State) (r : BitVec 4) (a : Addr) (i x : Byte),
    a.toNat = 0 ∨ 10239 < a.toNat ∨ 4 < i.toNat ∨ 1 < x.toNat →
    exec (.setFg1 r a i x) s = .next { s with ret := .resp (0#1 ++ BitVec.ofBool s.pwr) })

/-- SET_SPEED on a key in the registry rewrites the last payload byte of its entry, in place, and nothing else; ok = 1
(R141; direction codes by D13). The entry is one of the shapes R150 allows. -/
def Obligations.SetSpeedPatchesTheLastByte : Prop :=
  ∀ (s : State) (r : BitVec 4) (a : Addr) (d v : Byte) (k : Nat) (e : Entry),
    1 ≤ a.toNat → a.toNat ≤ 10239 → d.toNat ≤ 1 → v.toNat ≤ 127 →
    s.reg[k]? = some e → e.cls = .speed → e.addr.toNat = a.toNat → 1 ≤ e.len.toNat → e.len.toNat ≤ 4 →
    (∀ j f, j < k → s.reg[j]? = some f → ¬ (f.cls = .speed ∧ f.addr.toNat = a.toNat)) →
    ∃ e' : Entry, e'.cls = e.cls ∧ e'.addr = e.addr ∧ e'.len = e.len ∧
      e'.payload = e.payload.dropLast ++ [BitVec.ofNat 8 (128 * d.toNat + v.toNat)] ∧
      exec (.setSpeed r a d v) s =
        .next { s with reg := s.reg.set k e', ret := .resp (1#1 ++ BitVec.ofBool s.pwr) }

/-- SET_SPEED on an absent key appends one entry at the end of the registry, with the address bytes, the selector and the
speed byte as payload, and changes nothing else; ok = 1 (R141, R125, R126; depth by D10, direction codes by D13). -/
def Obligations.SetSpeedAppendsAFreshEntry : Prop :=
  ∀ (s : State) (r : BitVec 4) (a : Addr) (d v : Byte),
    1 ≤ a.toNat → a.toNat ≤ 10239 → d.toNat ≤ 1 → v.toNat ≤ 127 → s.reg.length < 20478 →
    (∀ f ∈ s.reg, ¬ (f.cls = .speed ∧ f.addr.toNat = a.toNat)) →
    ∃ e : Entry, e.cls = .speed ∧ e.addr.toNat = a.toNat ∧
      e.payload =
        (if a.toNat ≤ 127 then [BitVec.ofNat 8 a.toNat]
          else [BitVec.ofNat 8 (0xC0 + a.toNat / 256), BitVec.ofNat 8 (a.toNat % 256)]) ++
        [0x3F, BitVec.ofNat 8 (128 * d.toNat + v.toNat)] ∧
      exec (.setSpeed r a d v) s =
        .next { s with reg := s.reg ++ [e], ret := .resp (1#1 ++ BitVec.ofBool s.pwr) }

/-- SET_FG1 on a key in the registry sets or clears one bit of its entry's last byte, in place, preserving the other bits,
and changes nothing else; ok = 1 (R142, R48). -/
def Obligations.SetFg1PatchesOneBit : Prop :=
  ∀ (s : State) (r : BitVec 4) (a : Addr) (i x : Byte) (k : Nat) (e : Entry) (b : Byte),
    1 ≤ a.toNat → a.toNat ≤ 10239 → i.toNat ≤ 4 → x.toNat ≤ 1 →
    s.reg[k]? = some e → e.cls = .fg1 → e.addr.toNat = a.toNat → 1 ≤ e.len.toNat → e.len.toNat ≤ 4 →
    (∀ j f, j < k → s.reg[j]? = some f → ¬ (f.cls = .fg1 ∧ f.addr.toNat = a.toNat)) →
    e.payload.getLast? = some b →
    ∃ (e' : Entry) (b' : Byte), e'.cls = e.cls ∧ e'.addr = e.addr ∧ e'.len = e.len ∧
      e'.payload = e.payload.dropLast ++ [b'] ∧
      (∀ n : Nat, b'.getLsbD n =
        if n = (if i.toNat = 0 then 4 else i.toNat - 1) then decide (x.toNat = 1) else b.getLsbD n) ∧
      exec (.setFg1 r a i x) s =
        .next { s with reg := s.reg.set k e', ret := .resp (1#1 ++ BitVec.ofBool s.pwr) }

/-- SET_FG1 on an absent key appends one entry with the address bytes and 0x80, plus the index's mask for state 1, and
changes nothing else; ok = 1 (R142, R125, R128; depth by D10). -/
def Obligations.SetFg1AppendsAFreshEntry : Prop :=
  ∀ (s : State) (r : BitVec 4) (a : Addr) (i x : Byte),
    1 ≤ a.toNat → a.toNat ≤ 10239 → i.toNat ≤ 4 → x.toNat ≤ 1 → s.reg.length < 20478 →
    (∀ f ∈ s.reg, ¬ (f.cls = .fg1 ∧ f.addr.toNat = a.toNat)) →
    ∃ e : Entry, e.cls = .fg1 ∧ e.addr.toNat = a.toNat ∧
      e.payload =
        (if a.toNat ≤ 127 then [BitVec.ofNat 8 a.toNat]
          else [BitVec.ofNat 8 (0xC0 + a.toNat / 256), BitVec.ofNat 8 (a.toNat % 256)]) ++
        [if x.toNat = 1 then 0x80#8 ||| (if i.toNat = 0 then 0x10#8 else 1#8 <<< (i.toNat - 1)) else 0x80#8] ∧
      exec (.setFg1 r a i x) s =
        .next { s with reg := s.reg ++ [e], ret := .resp (1#1 ++ BitVec.ofBool s.pwr) }

/-- Setting a function whose bit is 0 and then clearing it restores the whole registry (R142 e; the source's property, as
limited by spec/90 C9). -/
def Obligations.SetThenClearRestoresAClearBit : Prop :=
  ∀ (s t : State) (r : BitVec 4) (a : Addr) (i : Byte) (k : Nat) (e : Entry) (b : Byte),
    s.Inv → i.toNat ≤ 4 → s.reg[k]? = some e → e.cls = .fg1 → e.addr.toNat = a.toNat →
    e.payload.getLast? = some b → b.getLsbD (if i.toNat = 0 then 4 else i.toNat - 1) = false →
    exec (.setFg1 r a i 1) s = .next t →
    t.reg ≠ s.reg ∧
    exec (.setFg1 r a i 0) t = .next { s with ret := .resp (1#1 ++ BitVec.ofBool s.pwr) }

/-- A key that is absent from a registry holding REG_DEPTH entries has no slot and the command is refused by name (R141 f;
decision D10, log 13). -/
def Obligations.FullRegistryRefusesANewKey : Prop :=
  (∀ (s : State) (r : BitVec 4) (a : Addr) (d v : Byte),
    1 ≤ a.toNat → a.toNat ≤ 10239 → d.toNat ≤ 1 → v.toNat ≤ 127 → 20478 ≤ s.reg.length →
    (∀ f ∈ s.reg, ¬ (f.cls = .speed ∧ f.addr.toNat = a.toNat)) →
    exec (.setSpeed r a d v) s = .refused .registryFull) ∧
  (∀ (s : State) (r : BitVec 4) (a : Addr) (i x : Byte),
    1 ≤ a.toNat → a.toNat ≤ 10239 → i.toNat ≤ 4 → x.toNat ≤ 1 → 20478 ≤ s.reg.length →
    (∀ f ∈ s.reg, ¬ (f.cls = .fg1 ∧ f.addr.toNat = a.toNat)) →
    exec (.setFg1 r a i x) s = .refused .registryFull)

/-! ## The scheduler -/

/-- SEND in its three cases: more than 5 bytes latches ERR_FATAL and enqueues nothing, too little room latches ANOM and
enqueues nothing, else the whole frame is enqueued; nothing else changes (R144, R172, R173; decisions D9, D18, log 14). -/
def Obligations.SendIsAllOrNothing : Prop :=
  ∀ (p : List Byte) (s : State),
    (5 < p.length → exec (.send p) s = .next { s with errFatal := true }) ∧
    (p.length ≤ 5 → 8 < s.q.length + p.length + 2 → exec (.send p) s = .next { s with anom := true }) ∧
    (p.length ≤ 5 → s.q.length + p.length + 2 ≤ 8 → exec (.send p) s =
      .next { s with q := s.q ++ (0x8000FFFF#32 ::
        (p.map (fun b => 0#24 ++ b) ++ [0x400000#24 ++ p.foldr (fun b c => b ^^^ c) 0])) })

/-- TICK on an empty registry sends the idle packet, checksum 0xFF, and leaves CURSOR alone (R143, R145); with more than 4
words queued SEND drops it whole and latches ANOM (R144, by decision D9, log 21). -/
def Obligations.TickOfEmptyRegistrySendsIdle : Prop :=
  ∀ s : State, s.reg = [] →
    (s.q.length ≤ 4 → exec .tick s =
      .next { s with q := s.q ++ [0x8000FFFF, 0x000000FF, 0x00000000, 0x400000FF] }) ∧
    (4 < s.q.length → exec .tick s = .next { s with anom := true })

/-- TICK on a non-empty registry sends the payload of the entry under CURSOR (index 0 where the pass is exhausted) and
leaves CURSOR one past it, whether or not the packet fits (R143; cursor mechanics by decision D11). -/
def Obligations.TickServesTheCursor : Prop :=
  ∀ (s : State) (k : Nat) (e : Entry), s.reg.length < 32768 → s.reg ≠ [] →
    k = (if s.reg.length ≤ s.cursor.toNat then 0 else s.cursor.toNat) → s.reg[k]? = some e →
    ∃ t : State, exec (.send e.payload) { s with cursor := BitVec.ofNat 15 (k + 1) } = .next t ∧
      exec .tick s = .next t ∧ t.reg = s.reg ∧ t.cursor.toNat = k + 1

/-- Round-robin fairness: N ticks over a registry of N entries serve each entry exactly once, and the order is cyclic
insertion order (R146, R143; cursor mechanics by decision D11, log 22). `idx m` is the entry tick number m serves. -/
def Obligations.TicksVisitEveryEntryOnce : Prop :=
  ∀ s : State, s.reg ≠ [] → s.reg.length < 32768 →
    ∃ idx : Nat → Nat,
      (∀ m, ∃ (t u : State) (e : Entry), repeatExec .tick m s = .next t ∧ t.reg = s.reg ∧
        s.reg[idx m]? = some e ∧ exec .tick t = .next u ∧
        exec (.send e.payload) { t with cursor := BitVec.ofNat 15 (idx m + 1) } = .next u) ∧
      (∀ m, idx (m + 1) = (idx m + 1) % s.reg.length) ∧
      ((List.range s.reg.length).map idx).Perm (List.range s.reg.length)

/-- A key appended while the pass is not over is served in the same pass, and one appended when the pass has just ended is
served by the very next tick (R151, R147; cursor mechanics by decision D11, log 22): an entry at index k at or after CURSOR
is served k - CURSOR ticks later. -/
def Obligations.AppendedEntryIsServedInTheSamePass : Prop :=
  ∀ (s : State) (k : Nat) (e : Entry), s.reg.length < 32768 → s.cursor.toNat ≤ k → s.reg[k]? = some e →
    ∃ t u : State, repeatExec .tick (k - s.cursor.toNat) s = .next t ∧ t.reg = s.reg ∧ exec .tick t = .next u ∧
      exec (.send e.payload) { t with cursor := BitVec.ofNat 15 (k + 1) } = .next u

/-- TIMER_CLOCK: nothing while SCHED_RUN = 0; a count; or, where the period has elapsed, a reload and one TICK. CLOCK_STEP is
ENGINE_CLOCK and then TIMER_CLOCK (R148, R149; decision D12, log 16). -/
def Obligations.TimerClockCasesAndClockOrder : Prop :=
  ∀ s : State,
    (s.schedRun = false → exec .timerClock s = .next s) ∧
    (s.schedRun = true → 2 ≤ s.tcnt.toNat → exec .timerClock s = .next { s with tcnt := s.tcnt - 1 }) ∧
    (s.schedRun = true → s.tcnt.toNat ≤ 1 →
      ∃ t : State, exec .tick { s with tcnt := 15000 } = .next t ∧ exec .timerClock s = .next t) ∧
    (∃ t u : State, exec .engineClock s = .next t ∧ exec .timerClock t = .next u ∧ exec .clockStep s = .next u)

/-- The first tick after POWER_ON comes in the 15000th timer clock: 14999 clocks only count down, and the 15000th runs one
TICK and reloads (R148, R160; decision D12). -/
def Obligations.FirstTickAfterAFullPeriod : Prop :=
  ∀ (s t : State) (r : BitVec 4) (a : Addr) (x y : Byte), exec (.powerOn r a x y) s = .next t →
    repeatExec .timerClock 14999 t = .next { t with tcnt := 1 } ∧
    repeatExec .timerClock 15000 t = exec .tick { t with tcnt := 15000 }

/-- Under the nominal timer no packet and no word is ever dropped: a step keeps the core paced and leaves ANOM and QOVF as
they were, unless a harness pushes raw words (R205, R173; rests on decisions D7 and D12, logs 15 and 16). -/
def Obligations.NominalTimerNeverDropsAPacket : Prop :=
  ∀ s t : State, s.Inv → s.Paced → s.NoRawPush → step s = .next t →
    t.Paced ∧ (s.port.head? ≠ some .rst → t.anom = s.anom ∧ t.qovf = s.qovf)

/-! ## Power and the command port -/

/-- POWER_ON asserts the booster enable, starts the engine, resets the cursor and starts the tick timer with a full period;
POWER_OFF deasserts the booster enable and stops the tick and the engine. Nothing else changes; ok = 1 and pwr is the state
after (R160, R161; decisions D7, D16, D17). -/
def Obligations.PowerTransitions : Prop :=
  ∀ (s : State) (r : BitVec 4) (a : Addr) (x y : Byte),
    exec (.powerOn r a x y) s =
      .next { s with pwr := true, run := true, cursor := 0, schedRun := true, tcnt := 15000, ret := .resp 3 } ∧
    exec (.powerOff r a x y) s = .next { s with pwr := false, schedRun := false, run := false, ret := .resp 2 }

/-- POWER_QUERY returns ok = 1 and the enable-line state, and changes no state (R162). -/
def Obligations.PowerQueryReadsTheEnableLine : Prop :=
  ∀ (s : State) (r : BitVec 4) (a : Addr) (x y : Byte), exec (.powerQuery r a x y) s =
    .next { s with ret := .resp (1#1 ++ BitVec.ofBool s.pwr) } ∧ s.pins.boostEn = s.pwr

/-- A reserved operation code returns ok = 0 and changes no state (R75 a; decision D23). -/
def Obligations.ReservedOpDoesNothing : Prop :=
  ∀ (s : State) (op r : BitVec 4) (a : Addr) (x y : Byte), exec (.reservedOp op r a x y) s =
    .next { s with ret := .resp (0#1 ++ BitVec.ofBool s.pwr) }

/-- EXEC_CMD of a word does what the instruction it decodes to does, and in every state of the invariant it completes (R166;
decision D14). It completes because REG_DEPTH is 20478, one slot a key, by decision D10 (log 13): R141 f refuses a new key
in a full registry. -/
def Obligations.ExecCmdRunsTheDecodedCommand : Prop :=
  ∀ (w : CmdWord) (s : State), exec (.execCmd w) s = exec (decodeCommand w) s ∧
    (s.Inv → ∃ t, exec (.execCmd w) s = .next t)

/-- Residual emission: POWER_OFF, any number of clock steps and POWER_ON leave the engine's registers, the line, the queue
and the registry exactly as they were (R165, R164, R183; freezing is decision D7, log 15). -/
def Obligations.PowerCycleFreezesTheEngine : Prop :=
  ∀ (s t u v : State) (r r' : BitVec 4) (a a' : Addr) (x x' y y' : Byte) (n : Nat),
    exec (.powerOff r a x y) s = .next t → repeatExec .clockStep n t = .next u →
    exec (.powerOn r' a' x' y') u = .next v →
    u = t ∧ SameEngine s v ∧ v.q = s.q ∧ v.reg = s.reg ∧ v.residue = s.residue

/-- No instruction but POWER_ON and POWER_OFF changes the power state: no clock step, tick, anomaly, error or registry
command does (R163). -/
def Obligations.OnlyPowerCommandsChangeThePowerState : Prop :=
  ∀ (i : Instr) (s t : State), powerCommand i = false → exec i s = .next t →
    t.pwr = s.pwr ∧ t.pins.boostEn = s.pins.boostEn ∧ t.schedRun = s.schedRun

/-! ## Errors, reset and the whole machine -/

/-- The sticky flags are never cleared by any step but reset (R20, R26, R27, R178). -/
def Obligations.StickyFlagsStaySet : Prop :=
  ∀ s t : State, s.port.head? ≠ some .rst → step s = .next t →
    (s.qovf = true → t.qovf = true) ∧ (s.anom = true → t.anom = true) ∧ (s.errFatal = true → t.errFatal = true)

/-- No step from a state of the invariant sets ERR_FATAL: the fatal branch of SEND is unreachable from the command port, the
clock and the harness (R150, R172; the latch is decision D18). -/
def Obligations.FatalErrorIsUnreachable : Prop :=
  ∀ s t : State, s.Inv → ¬ s.Failed → step s = .next t → ¬ t.Failed

/-- The reset values: power OFF and an empty registry by the source, the rest by decision D20, LINE by D6 (R36). -/
def Obligations.ResetLeavesTheTableOfValues : Prop :=
  State.reset.pwr = false ∧ State.reset.run = false ∧ State.reset.schedRun = false ∧ State.reset.st.code = 0 ∧
  State.reset.sr = 0 ∧ State.reset.nbits = 0 ∧ State.reset.finalMark = false ∧ State.reset.cur = false ∧
  State.reset.phase = false ∧ State.reset.hc = 0 ∧ State.reset.line = false ∧ State.reset.lineOe = true ∧
  State.reset.q = [] ∧ State.reset.qovf = false ∧ State.reset.reg = [] ∧ State.reset.cursor = 0 ∧
  State.reset.tcnt = 0 ∧ State.reset.anom = false ∧ State.reset.errFatal = false

/-- With the engine and the timer stopped, as after reset, clock steps change nothing (R201, R183). -/
def Obligations.StoppedCoreIsUnchangedByTheClock : Prop :=
  ∀ (s : State) (n : Nat), s.run = false → s.schedRun = false → s.port = [] → Sys2Proof.core.run n s = .next s

/-- The invariant of R34 holds in the reset state, and so does the pacing of R205. -/
def Obligations.InvariantHoldsAtReset : Prop := State.reset.Inv ∧ State.reset.Paced ∧ State.reset.Clean

/-- Every step keeps the invariant of R34: the phase of the line, the counters' ranges, the queue's capacity, distinct
registry keys with entries of R150's shapes, the cursor's range, RUN = SCHED_RUN = PWR, the timer's range. -/
def Obligations.StepKeepsTheInvariant : Prop :=
  ∀ s t : State, s.Inv → step s = .next t → t.Inv

/-- From every state of the invariant every step completes: no command, clock step, push or reset is ever refused or faults
(R104, R167, R173, R177; D10 for the depth). -/
def Obligations.EveryStepCompletes : Prop :=
  ∀ s : State, s.Inv → ∃ t : State, step s = .next t
end

