-- ==== Sys2Proof/Laws/Decode.lean ====
section
/-! SUPPORT. The marker positions of the control words: what putting a bit in and taking it out do at any position, and the
fields and words these give at the default positions of R61 and R62. Later proofs cite these forms. -/

namespace Sys2Proof

/-- Bit `i` of a word into which one bit has been put. -/
theorem getLsbD_insertBit {n p : Nat} {b : Bool} {v : BitVec n} (hp : p ≤ n) (i : Nat) :
    (insertBit p b v).getLsbD i = if i < p then v.getLsbD i else if i = p then b else v.getLsbD (i - 1) := by
  have e : v.toNat / 2 ^ p * 2 ^ (p + 1) + b.toNat * 2 ^ p + v.toNat % 2 ^ p
      = 2 ^ p * (2 * (v.toNat / 2 ^ p) + b.toNat) + v.toNat % 2 ^ p := by ring
  simp only [insertBit, BitVec.getLsbD_ofNat, e]
  rw [Nat.testBit_two_pow_mul_add _ (Nat.mod_lt _ (Nat.two_pow_pos p))]
  by_cases h : i < p
  · simp [h, Nat.testBit_mod_two_pow, BitVec.getLsbD]; omega
  · simp only [h, if_false]
    obtain ⟨j, rfl⟩ : ∃ j, i = p + j := ⟨i - p, by omega⟩
    cases j with
    | zero => cases b <;> simp [hp]
    | succ j =>
      have : (2 * (v.toNat / 2 ^ p) + b.toNat).testBit (j + 1) = v.getLsbD (p + j) := by
        rw [Nat.testBit_succ]
        have half : (2 * (v.toNat / 2 ^ p) + b.toNat) / 2 = v.toNat / 2 ^ p := by have := b.toNat_le; omega
        rw [half, Nat.testBit_div_two_pow, BitVec.getLsbD, Nat.add_comm]
      have lt : v.getLsbD (p + j) = true → p + (j + 1) ≤ n := fun h => by have := BitVec.lt_of_getLsbD h; omega
      simpa [this] using lt

/-- Bit `i` of a word from which one bit has been taken. -/
theorem getLsbD_removeBit {n p : Nat} {v : BitVec (n + 1)} (i : Nat) :
    (removeBit p v).getLsbD i = (decide (i < n) && if i < p then v.getLsbD i else v.getLsbD (i + 1)) := by
  have e : v.toNat / 2 ^ (p + 1) * 2 ^ p + v.toNat % 2 ^ p = 2 ^ p * (v.toNat / 2 ^ (p + 1)) + v.toNat % 2 ^ p := by ring
  simp only [removeBit, BitVec.getLsbD_ofNat, e]
  rw [Nat.testBit_two_pow_mul_add _ (Nat.mod_lt _ (Nat.two_pow_pos p))]
  by_cases h : i < p
  · simp [h, Nat.testBit_mod_two_pow, BitVec.getLsbD]
  · simp only [h, if_false, Nat.testBit_div_two_pow, BitVec.getLsbD]
    congr 2; omega

/-- Taking a bit out undoes putting it in, at any position. -/
theorem removeBit_insertBit {n p : Nat} {b : Bool} {v : BitVec n} (hp : p ≤ n) : removeBit p (insertBit p b v) = v := by
  apply BitVec.eq_of_getLsbD_eq
  intro i hi
  rw [getLsbD_removeBit, getLsbD_insertBit hp, getLsbD_insertBit hp]
  by_cases h : i < p
  · simp [h, hi]
  · simp [h, hi, show ¬ i + 1 < p by omega, show i + 1 ≠ p by omega]

/-- At the default PP_BIT a PP word is the marker, the ignored bits and the literal bits, from bit 31 down (R61). -/
theorem ppControl_eq (r : BitVec 15) (b : BitVec 16) : ppControl r b = 1#1 ++ r ++ b := by
  apply BitVec.eq_of_getLsbD_eq
  intro i hi
  rw [ppControl, getLsbD_insertBit (by decide)]
  simp only [BitVec.getLsbD_append, Config.ppBit]
  by_cases h : i < 31
  · by_cases h1 : i < 16
    · simp [h, h1]
    · simp [h, h1, show i - 16 < 15 by omega]
  · obtain rfl : i = 31 := by omega
    simp

/-- At the default positions a data-byte word is a clear marker, the final marker, the ignored bits, the start bit and
the byte, from bit 31 down (R62). -/
theorem dbControl_eq (f : Bool) (r : BitVec 21) (s : BitVec 1) (d : Byte) :
    dbControl f r s d = 0#1 ++ BitVec.ofBool f ++ r ++ s ++ d := by
  apply BitVec.eq_of_getLsbD_eq
  intro i hi
  rw [dbControl, getLsbD_insertBit (by decide), getLsbD_insertBit (by decide), getLsbD_insertBit (by decide)]
  simp only [BitVec.getLsbD_append, Config.ppBit, show fbBitBesidePp = 30 from rfl]
  by_cases h : i < 30
  · by_cases h1 : i < 8
    · simp [h, h1, show i < 31 by omega]
    · by_cases h2 : i - 8 < 1
      · simp [h, h1, h2, show i < 31 by omega]
      · simp [h, h1, h2, show i < 31 by omega, show i - 8 - 1 < 21 by omega]
  · rcases (by omega : i = 30 ∨ i = 31) with rfl | rfl <;> simp

/-- At the default PP_BIT the ignored bits of a PP word are bits 30:16 (R61). -/
theorem ppReserved_eq (w : Word) : ppReserved w = w.extractLsb' 16 15 := by
  apply BitVec.eq_of_getLsbD_eq
  intro i hi
  simp only [ppReserved, BitVec.getLsbD_extractLsb', getLsbD_removeBit, Config.ppBit]
  simp [hi, show 16 + i < 31 by omega]

/-- At the default positions the ignored bits of a data-byte word are bits 29:9 (R62). -/
theorem dbReserved_eq (w : Word) : dbReserved w = w.extractLsb' 9 21 := by
  apply BitVec.eq_of_getLsbD_eq
  intro i hi
  simp only [dbReserved, BitVec.getLsbD_extractLsb', getLsbD_removeBit, Config.ppBit, show fbBitBesidePp = 30 from rfl]
  simp [hi, show 9 + i < 30 by omega, show 9 + i < 31 by omega]

/-! The encoder's control words at the default marker positions, one equation a row (R61, R62). -/

theorem encode_pp (r : BitVec 15) (b : BitVec 16) : encode (.pp r b) = some (.control (1#1 ++ r ++ b)) := by
  rw [encode, ppControl_eq]

theorem encode_preamble (r : BitVec 15) : encode (.preamble r) = some (.control (1#1 ++ r ++ 0xFFFF#16)) := by
  rw [encode, ppControl_eq]; rfl

theorem encode_pad (r : BitVec 15) : encode (.pad r) = some (.control (1#1 ++ r ++ 0x0000#16)) := by
  rw [encode, ppControl_eq]; rfl

theorem encode_db (r : BitVec 21) (s : BitVec 1) (d : Byte) :
    encode (.db r s d) = some (.control (0#1 ++ 0#1 ++ r ++ s ++ d)) := by
  rw [encode, dbControl_eq]; rfl

theorem encode_dbf (r : BitVec 21) (s : BitVec 1) (d : Byte) :
    encode (.dbf r s d) = some (.control (0#1 ++ 1#1 ++ r ++ s ++ d)) := by
  rw [encode, dbControl_eq]; rfl

end Sys2Proof
end

