-- ==== Sys2Proof/Laws/State.lean ====
section
/-! SUPPORT. One lemma per field per named update of State, true by unfolding, so that no proof unfolds a record update. -/

namespace Sys2Proof.Machine

/-! ## setQovf -/

@[simp] theorem setQovf_run (s : State) : (setQovf s).run = s.run := rfl
@[simp] theorem setQovf_st (s : State) : (setQovf s).st = s.st := rfl
@[simp] theorem setQovf_sr (s : State) : (setQovf s).sr = s.sr := rfl
@[simp] theorem setQovf_nbits (s : State) : (setQovf s).nbits = s.nbits := rfl
@[simp] theorem setQovf_finalMark (s : State) : (setQovf s).finalMark = s.finalMark := rfl
@[simp] theorem setQovf_cur (s : State) : (setQovf s).cur = s.cur := rfl
@[simp] theorem setQovf_phase (s : State) : (setQovf s).phase = s.phase := rfl
@[simp] theorem setQovf_hc (s : State) : (setQovf s).hc = s.hc := rfl
@[simp] theorem setQovf_line (s : State) : (setQovf s).line = s.line := rfl
@[simp] theorem setQovf_q (s : State) : (setQovf s).q = s.q := rfl
@[simp] theorem setQovf_qovf (s : State) : (setQovf s).qovf = true := rfl
@[simp] theorem setQovf_reg (s : State) : (setQovf s).reg = s.reg := rfl
@[simp] theorem setQovf_cursor (s : State) : (setQovf s).cursor = s.cursor := rfl
@[simp] theorem setQovf_schedRun (s : State) : (setQovf s).schedRun = s.schedRun := rfl
@[simp] theorem setQovf_tcnt (s : State) : (setQovf s).tcnt = s.tcnt := rfl
@[simp] theorem setQovf_anom (s : State) : (setQovf s).anom = s.anom := rfl
@[simp] theorem setQovf_errFatal (s : State) : (setQovf s).errFatal = s.errFatal := rfl
@[simp] theorem setQovf_pwr (s : State) : (setQovf s).pwr = s.pwr := rfl
@[simp] theorem setQovf_port (s : State) : (setQovf s).port = s.port := rfl
@[simp] theorem setQovf_ret (s : State) : (setQovf s).ret = s.ret := rfl

/-! ## setAnom -/

@[simp] theorem setAnom_run (s : State) : (setAnom s).run = s.run := rfl
@[simp] theorem setAnom_st (s : State) : (setAnom s).st = s.st := rfl
@[simp] theorem setAnom_sr (s : State) : (setAnom s).sr = s.sr := rfl
@[simp] theorem setAnom_nbits (s : State) : (setAnom s).nbits = s.nbits := rfl
@[simp] theorem setAnom_finalMark (s : State) : (setAnom s).finalMark = s.finalMark := rfl
@[simp] theorem setAnom_cur (s : State) : (setAnom s).cur = s.cur := rfl
@[simp] theorem setAnom_phase (s : State) : (setAnom s).phase = s.phase := rfl
@[simp] theorem setAnom_hc (s : State) : (setAnom s).hc = s.hc := rfl
@[simp] theorem setAnom_line (s : State) : (setAnom s).line = s.line := rfl
@[simp] theorem setAnom_q (s : State) : (setAnom s).q = s.q := rfl
@[simp] theorem setAnom_qovf (s : State) : (setAnom s).qovf = s.qovf := rfl
@[simp] theorem setAnom_reg (s : State) : (setAnom s).reg = s.reg := rfl
@[simp] theorem setAnom_cursor (s : State) : (setAnom s).cursor = s.cursor := rfl
@[simp] theorem setAnom_schedRun (s : State) : (setAnom s).schedRun = s.schedRun := rfl
@[simp] theorem setAnom_tcnt (s : State) : (setAnom s).tcnt = s.tcnt := rfl
@[simp] theorem setAnom_anom (s : State) : (setAnom s).anom = true := rfl
@[simp] theorem setAnom_errFatal (s : State) : (setAnom s).errFatal = s.errFatal := rfl
@[simp] theorem setAnom_pwr (s : State) : (setAnom s).pwr = s.pwr := rfl
@[simp] theorem setAnom_port (s : State) : (setAnom s).port = s.port := rfl
@[simp] theorem setAnom_ret (s : State) : (setAnom s).ret = s.ret := rfl

/-! ## setErrFatal -/

@[simp] theorem setErrFatal_run (s : State) : (setErrFatal s).run = s.run := rfl
@[simp] theorem setErrFatal_st (s : State) : (setErrFatal s).st = s.st := rfl
@[simp] theorem setErrFatal_sr (s : State) : (setErrFatal s).sr = s.sr := rfl
@[simp] theorem setErrFatal_nbits (s : State) : (setErrFatal s).nbits = s.nbits := rfl
@[simp] theorem setErrFatal_finalMark (s : State) : (setErrFatal s).finalMark = s.finalMark := rfl
@[simp] theorem setErrFatal_cur (s : State) : (setErrFatal s).cur = s.cur := rfl
@[simp] theorem setErrFatal_phase (s : State) : (setErrFatal s).phase = s.phase := rfl
@[simp] theorem setErrFatal_hc (s : State) : (setErrFatal s).hc = s.hc := rfl
@[simp] theorem setErrFatal_line (s : State) : (setErrFatal s).line = s.line := rfl
@[simp] theorem setErrFatal_q (s : State) : (setErrFatal s).q = s.q := rfl
@[simp] theorem setErrFatal_qovf (s : State) : (setErrFatal s).qovf = s.qovf := rfl
@[simp] theorem setErrFatal_reg (s : State) : (setErrFatal s).reg = s.reg := rfl
@[simp] theorem setErrFatal_cursor (s : State) : (setErrFatal s).cursor = s.cursor := rfl
@[simp] theorem setErrFatal_schedRun (s : State) : (setErrFatal s).schedRun = s.schedRun := rfl
@[simp] theorem setErrFatal_tcnt (s : State) : (setErrFatal s).tcnt = s.tcnt := rfl
@[simp] theorem setErrFatal_anom (s : State) : (setErrFatal s).anom = s.anom := rfl
@[simp] theorem setErrFatal_errFatal (s : State) : (setErrFatal s).errFatal = true := rfl
@[simp] theorem setErrFatal_pwr (s : State) : (setErrFatal s).pwr = s.pwr := rfl
@[simp] theorem setErrFatal_port (s : State) : (setErrFatal s).port = s.port := rfl
@[simp] theorem setErrFatal_ret (s : State) : (setErrFatal s).ret = s.ret := rfl

/-! ## respond -/

@[simp] theorem respond_run (ok : Bool) (s : State) : (respond ok s).run = s.run := rfl
@[simp] theorem respond_st (ok : Bool) (s : State) : (respond ok s).st = s.st := rfl
@[simp] theorem respond_sr (ok : Bool) (s : State) : (respond ok s).sr = s.sr := rfl
@[simp] theorem respond_nbits (ok : Bool) (s : State) : (respond ok s).nbits = s.nbits := rfl
@[simp] theorem respond_finalMark (ok : Bool) (s : State) : (respond ok s).finalMark = s.finalMark := rfl
@[simp] theorem respond_cur (ok : Bool) (s : State) : (respond ok s).cur = s.cur := rfl
@[simp] theorem respond_phase (ok : Bool) (s : State) : (respond ok s).phase = s.phase := rfl
@[simp] theorem respond_hc (ok : Bool) (s : State) : (respond ok s).hc = s.hc := rfl
@[simp] theorem respond_line (ok : Bool) (s : State) : (respond ok s).line = s.line := rfl
@[simp] theorem respond_q (ok : Bool) (s : State) : (respond ok s).q = s.q := rfl
@[simp] theorem respond_qovf (ok : Bool) (s : State) : (respond ok s).qovf = s.qovf := rfl
@[simp] theorem respond_reg (ok : Bool) (s : State) : (respond ok s).reg = s.reg := rfl
@[simp] theorem respond_cursor (ok : Bool) (s : State) : (respond ok s).cursor = s.cursor := rfl
@[simp] theorem respond_schedRun (ok : Bool) (s : State) : (respond ok s).schedRun = s.schedRun := rfl
@[simp] theorem respond_tcnt (ok : Bool) (s : State) : (respond ok s).tcnt = s.tcnt := rfl
@[simp] theorem respond_anom (ok : Bool) (s : State) : (respond ok s).anom = s.anom := rfl
@[simp] theorem respond_errFatal (ok : Bool) (s : State) : (respond ok s).errFatal = s.errFatal := rfl
@[simp] theorem respond_pwr (ok : Bool) (s : State) : (respond ok s).pwr = s.pwr := rfl
@[simp] theorem respond_port (ok : Bool) (s : State) : (respond ok s).port = s.port := rfl
@[simp] theorem respond_ret (ok : Bool) (s : State) : (respond ok s).ret = .resp (respWord ok s.pwr) := rfl

/-! ## answer -/

@[simp] theorem answer_run (r : Ret) (s : State) : (answer r s).run = s.run := rfl
@[simp] theorem answer_st (r : Ret) (s : State) : (answer r s).st = s.st := rfl
@[simp] theorem answer_sr (r : Ret) (s : State) : (answer r s).sr = s.sr := rfl
@[simp] theorem answer_nbits (r : Ret) (s : State) : (answer r s).nbits = s.nbits := rfl
@[simp] theorem answer_finalMark (r : Ret) (s : State) : (answer r s).finalMark = s.finalMark := rfl
@[simp] theorem answer_cur (r : Ret) (s : State) : (answer r s).cur = s.cur := rfl
@[simp] theorem answer_phase (r : Ret) (s : State) : (answer r s).phase = s.phase := rfl
@[simp] theorem answer_hc (r : Ret) (s : State) : (answer r s).hc = s.hc := rfl
@[simp] theorem answer_line (r : Ret) (s : State) : (answer r s).line = s.line := rfl
@[simp] theorem answer_q (r : Ret) (s : State) : (answer r s).q = s.q := rfl
@[simp] theorem answer_qovf (r : Ret) (s : State) : (answer r s).qovf = s.qovf := rfl
@[simp] theorem answer_reg (r : Ret) (s : State) : (answer r s).reg = s.reg := rfl
@[simp] theorem answer_cursor (r : Ret) (s : State) : (answer r s).cursor = s.cursor := rfl
@[simp] theorem answer_schedRun (r : Ret) (s : State) : (answer r s).schedRun = s.schedRun := rfl
@[simp] theorem answer_tcnt (r : Ret) (s : State) : (answer r s).tcnt = s.tcnt := rfl
@[simp] theorem answer_anom (r : Ret) (s : State) : (answer r s).anom = s.anom := rfl
@[simp] theorem answer_errFatal (r : Ret) (s : State) : (answer r s).errFatal = s.errFatal := rfl
@[simp] theorem answer_pwr (r : Ret) (s : State) : (answer r s).pwr = s.pwr := rfl
@[simp] theorem answer_port (r : Ret) (s : State) : (answer r s).port = s.port := rfl
@[simp] theorem answer_ret (r : Ret) (s : State) : (answer r s).ret = r := rfl

/-! ## startEngine -/

@[simp] theorem startEngine_run (s : State) : (startEngine s).run = true := rfl
@[simp] theorem startEngine_st (s : State) : (startEngine s).st = s.st := rfl
@[simp] theorem startEngine_sr (s : State) : (startEngine s).sr = s.sr := rfl
@[simp] theorem startEngine_nbits (s : State) : (startEngine s).nbits = s.nbits := rfl
@[simp] theorem startEngine_finalMark (s : State) : (startEngine s).finalMark = s.finalMark := rfl
@[simp] theorem startEngine_cur (s : State) : (startEngine s).cur = s.cur := rfl
@[simp] theorem startEngine_phase (s : State) : (startEngine s).phase = s.phase := rfl
@[simp] theorem startEngine_hc (s : State) : (startEngine s).hc = s.hc := rfl
@[simp] theorem startEngine_line (s : State) : (startEngine s).line = s.line := rfl
@[simp] theorem startEngine_q (s : State) : (startEngine s).q = s.q := rfl
@[simp] theorem startEngine_qovf (s : State) : (startEngine s).qovf = s.qovf := rfl
@[simp] theorem startEngine_reg (s : State) : (startEngine s).reg = s.reg := rfl
@[simp] theorem startEngine_cursor (s : State) : (startEngine s).cursor = s.cursor := rfl
@[simp] theorem startEngine_schedRun (s : State) : (startEngine s).schedRun = s.schedRun := rfl
@[simp] theorem startEngine_tcnt (s : State) : (startEngine s).tcnt = s.tcnt := rfl
@[simp] theorem startEngine_anom (s : State) : (startEngine s).anom = s.anom := rfl
@[simp] theorem startEngine_errFatal (s : State) : (startEngine s).errFatal = s.errFatal := rfl
@[simp] theorem startEngine_pwr (s : State) : (startEngine s).pwr = s.pwr := rfl
@[simp] theorem startEngine_port (s : State) : (startEngine s).port = s.port := rfl
@[simp] theorem startEngine_ret (s : State) : (startEngine s).ret = s.ret := rfl

/-! ## stopEngine -/

@[simp] theorem stopEngine_run (s : State) : (stopEngine s).run = false := rfl
@[simp] theorem stopEngine_st (s : State) : (stopEngine s).st = s.st := rfl
@[simp] theorem stopEngine_sr (s : State) : (stopEngine s).sr = s.sr := rfl
@[simp] theorem stopEngine_nbits (s : State) : (stopEngine s).nbits = s.nbits := rfl
@[simp] theorem stopEngine_finalMark (s : State) : (stopEngine s).finalMark = s.finalMark := rfl
@[simp] theorem stopEngine_cur (s : State) : (stopEngine s).cur = s.cur := rfl
@[simp] theorem stopEngine_phase (s : State) : (stopEngine s).phase = s.phase := rfl
@[simp] theorem stopEngine_hc (s : State) : (stopEngine s).hc = s.hc := rfl
@[simp] theorem stopEngine_line (s : State) : (stopEngine s).line = s.line := rfl
@[simp] theorem stopEngine_q (s : State) : (stopEngine s).q = s.q := rfl
@[simp] theorem stopEngine_qovf (s : State) : (stopEngine s).qovf = s.qovf := rfl
@[simp] theorem stopEngine_reg (s : State) : (stopEngine s).reg = s.reg := rfl
@[simp] theorem stopEngine_cursor (s : State) : (stopEngine s).cursor = s.cursor := rfl
@[simp] theorem stopEngine_schedRun (s : State) : (stopEngine s).schedRun = s.schedRun := rfl
@[simp] theorem stopEngine_tcnt (s : State) : (stopEngine s).tcnt = s.tcnt := rfl
@[simp] theorem stopEngine_anom (s : State) : (stopEngine s).anom = s.anom := rfl
@[simp] theorem stopEngine_errFatal (s : State) : (stopEngine s).errFatal = s.errFatal := rfl
@[simp] theorem stopEngine_pwr (s : State) : (stopEngine s).pwr = s.pwr := rfl
@[simp] theorem stopEngine_port (s : State) : (stopEngine s).port = s.port := rfl
@[simp] theorem stopEngine_ret (s : State) : (stopEngine s).ret = s.ret := rfl

/-! ## shiftOut -/

@[simp] theorem shiftOut_run (s : State) : (shiftOut s).run = s.run := rfl
@[simp] theorem shiftOut_st (s : State) : (shiftOut s).st = s.st := rfl
@[simp] theorem shiftOut_sr (s : State) : (shiftOut s).sr = s.sr <<< 1 := rfl
@[simp] theorem shiftOut_nbits (s : State) : (shiftOut s).nbits = nbitsPred s := rfl
@[simp] theorem shiftOut_finalMark (s : State) : (shiftOut s).finalMark = s.finalMark := rfl
@[simp] theorem shiftOut_cur (s : State) : (shiftOut s).cur = s.sr.msb := rfl
@[simp] theorem shiftOut_phase (s : State) : (shiftOut s).phase = s.phase := rfl
@[simp] theorem shiftOut_hc (s : State) : (shiftOut s).hc = s.hc := rfl
@[simp] theorem shiftOut_line (s : State) : (shiftOut s).line = s.line := rfl
@[simp] theorem shiftOut_q (s : State) : (shiftOut s).q = s.q := rfl
@[simp] theorem shiftOut_qovf (s : State) : (shiftOut s).qovf = s.qovf := rfl
@[simp] theorem shiftOut_reg (s : State) : (shiftOut s).reg = s.reg := rfl
@[simp] theorem shiftOut_cursor (s : State) : (shiftOut s).cursor = s.cursor := rfl
@[simp] theorem shiftOut_schedRun (s : State) : (shiftOut s).schedRun = s.schedRun := rfl
@[simp] theorem shiftOut_tcnt (s : State) : (shiftOut s).tcnt = s.tcnt := rfl
@[simp] theorem shiftOut_anom (s : State) : (shiftOut s).anom = s.anom := rfl
@[simp] theorem shiftOut_errFatal (s : State) : (shiftOut s).errFatal = s.errFatal := rfl
@[simp] theorem shiftOut_pwr (s : State) : (shiftOut s).pwr = s.pwr := rfl
@[simp] theorem shiftOut_port (s : State) : (shiftOut s).port = s.port := rfl
@[simp] theorem shiftOut_ret (s : State) : (shiftOut s).ret = s.ret := rfl

/-! ## loadPp -/

@[simp] theorem loadPp_run (b : BitVec 16) (s : State) : (loadPp b s).run = s.run := rfl
@[simp] theorem loadPp_st (b : BitVec 16) (s : State) : (loadPp b s).st = .emitPreamblePadding := rfl
@[simp] theorem loadPp_sr (b : BitVec 16) (s : State) : (loadPp b s).sr = b := rfl
@[simp] theorem loadPp_nbits (b : BitVec 16) (s : State) : (loadPp b s).nbits = 16 := rfl
@[simp] theorem loadPp_finalMark (b : BitVec 16) (s : State) : (loadPp b s).finalMark = false := rfl
@[simp] theorem loadPp_cur (b : BitVec 16) (s : State) : (loadPp b s).cur = s.cur := rfl
@[simp] theorem loadPp_phase (b : BitVec 16) (s : State) : (loadPp b s).phase = s.phase := rfl
@[simp] theorem loadPp_hc (b : BitVec 16) (s : State) : (loadPp b s).hc = s.hc := rfl
@[simp] theorem loadPp_line (b : BitVec 16) (s : State) : (loadPp b s).line = s.line := rfl
@[simp] theorem loadPp_q (b : BitVec 16) (s : State) : (loadPp b s).q = s.q := rfl
@[simp] theorem loadPp_qovf (b : BitVec 16) (s : State) : (loadPp b s).qovf = s.qovf := rfl
@[simp] theorem loadPp_reg (b : BitVec 16) (s : State) : (loadPp b s).reg = s.reg := rfl
@[simp] theorem loadPp_cursor (b : BitVec 16) (s : State) : (loadPp b s).cursor = s.cursor := rfl
@[simp] theorem loadPp_schedRun (b : BitVec 16) (s : State) : (loadPp b s).schedRun = s.schedRun := rfl
@[simp] theorem loadPp_tcnt (b : BitVec 16) (s : State) : (loadPp b s).tcnt = s.tcnt := rfl
@[simp] theorem loadPp_anom (b : BitVec 16) (s : State) : (loadPp b s).anom = s.anom := rfl
@[simp] theorem loadPp_errFatal (b : BitVec 16) (s : State) : (loadPp b s).errFatal = s.errFatal := rfl
@[simp] theorem loadPp_pwr (b : BitVec 16) (s : State) : (loadPp b s).pwr = s.pwr := rfl
@[simp] theorem loadPp_port (b : BitVec 16) (s : State) : (loadPp b s).port = s.port := rfl
@[simp] theorem loadPp_ret (b : BitVec 16) (s : State) : (loadPp b s).ret = s.ret := rfl

/-! ## loadData -/

@[simp] theorem loadData_run (b : BitVec 9) (f : Bool) (s : State) : (loadData b f s).run = s.run := rfl
@[simp] theorem loadData_st (b : BitVec 9) (f : Bool) (s : State) : (loadData b f s).st = .emitStartAndByte := rfl
@[simp] theorem loadData_sr (b : BitVec 9) (f : Bool) (s : State) : (loadData b f s).sr = (b ++ 0#7 : BitVec 16) := rfl
@[simp] theorem loadData_nbits (b : BitVec 9) (f : Bool) (s : State) : (loadData b f s).nbits = 9 := rfl
@[simp] theorem loadData_finalMark (b : BitVec 9) (f : Bool) (s : State) : (loadData b f s).finalMark = f := rfl
@[simp] theorem loadData_cur (b : BitVec 9) (f : Bool) (s : State) : (loadData b f s).cur = s.cur := rfl
@[simp] theorem loadData_phase (b : BitVec 9) (f : Bool) (s : State) : (loadData b f s).phase = s.phase := rfl
@[simp] theorem loadData_hc (b : BitVec 9) (f : Bool) (s : State) : (loadData b f s).hc = s.hc := rfl
@[simp] theorem loadData_line (b : BitVec 9) (f : Bool) (s : State) : (loadData b f s).line = s.line := rfl
@[simp] theorem loadData_q (b : BitVec 9) (f : Bool) (s : State) : (loadData b f s).q = s.q := rfl
@[simp] theorem loadData_qovf (b : BitVec 9) (f : Bool) (s : State) : (loadData b f s).qovf = s.qovf := rfl
@[simp] theorem loadData_reg (b : BitVec 9) (f : Bool) (s : State) : (loadData b f s).reg = s.reg := rfl
@[simp] theorem loadData_cursor (b : BitVec 9) (f : Bool) (s : State) : (loadData b f s).cursor = s.cursor := rfl
@[simp] theorem loadData_schedRun (b : BitVec 9) (f : Bool) (s : State) : (loadData b f s).schedRun = s.schedRun := rfl
@[simp] theorem loadData_tcnt (b : BitVec 9) (f : Bool) (s : State) : (loadData b f s).tcnt = s.tcnt := rfl
@[simp] theorem loadData_anom (b : BitVec 9) (f : Bool) (s : State) : (loadData b f s).anom = s.anom := rfl
@[simp] theorem loadData_errFatal (b : BitVec 9) (f : Bool) (s : State) : (loadData b f s).errFatal = s.errFatal := rfl
@[simp] theorem loadData_pwr (b : BitVec 9) (f : Bool) (s : State) : (loadData b f s).pwr = s.pwr := rfl
@[simp] theorem loadData_port (b : BitVec 9) (f : Bool) (s : State) : (loadData b f s).port = s.port := rfl
@[simp] theorem loadData_ret (b : BitVec 9) (f : Bool) (s : State) : (loadData b f s).ret = s.ret := rfl

/-! ## beginBit -/

@[simp] theorem beginBit_run (s : State) : (beginBit s).run = s.run := rfl
@[simp] theorem beginBit_st (s : State) : (beginBit s).st = s.st := rfl
@[simp] theorem beginBit_sr (s : State) : (beginBit s).sr = s.sr := rfl
@[simp] theorem beginBit_nbits (s : State) : (beginBit s).nbits = s.nbits := rfl
@[simp] theorem beginBit_finalMark (s : State) : (beginBit s).finalMark = s.finalMark := rfl
@[simp] theorem beginBit_cur (s : State) : (beginBit s).cur = s.cur := rfl
@[simp] theorem beginBit_phase (s : State) : (beginBit s).phase = false := rfl
@[simp] theorem beginBit_hc (s : State) : (beginBit s).hc = half s.cur := rfl
@[simp] theorem beginBit_line (s : State) : (beginBit s).line = !s.line := rfl
@[simp] theorem beginBit_q (s : State) : (beginBit s).q = s.q := rfl
@[simp] theorem beginBit_qovf (s : State) : (beginBit s).qovf = s.qovf := rfl
@[simp] theorem beginBit_reg (s : State) : (beginBit s).reg = s.reg := rfl
@[simp] theorem beginBit_cursor (s : State) : (beginBit s).cursor = s.cursor := rfl
@[simp] theorem beginBit_schedRun (s : State) : (beginBit s).schedRun = s.schedRun := rfl
@[simp] theorem beginBit_tcnt (s : State) : (beginBit s).tcnt = s.tcnt := rfl
@[simp] theorem beginBit_anom (s : State) : (beginBit s).anom = s.anom := rfl
@[simp] theorem beginBit_errFatal (s : State) : (beginBit s).errFatal = s.errFatal := rfl
@[simp] theorem beginBit_pwr (s : State) : (beginBit s).pwr = s.pwr := rfl
@[simp] theorem beginBit_port (s : State) : (beginBit s).port = s.port := rfl
@[simp] theorem beginBit_ret (s : State) : (beginBit s).ret = s.ret := rfl

/-! ## beginSecondHalf -/

@[simp] theorem beginSecondHalf_run (s : State) : (beginSecondHalf s).run = s.run := rfl
@[simp] theorem beginSecondHalf_st (s : State) : (beginSecondHalf s).st = s.st := rfl
@[simp] theorem beginSecondHalf_sr (s : State) : (beginSecondHalf s).sr = s.sr := rfl
@[simp] theorem beginSecondHalf_nbits (s : State) : (beginSecondHalf s).nbits = s.nbits := rfl
@[simp] theorem beginSecondHalf_finalMark (s : State) : (beginSecondHalf s).finalMark = s.finalMark := rfl
@[simp] theorem beginSecondHalf_cur (s : State) : (beginSecondHalf s).cur = s.cur := rfl
@[simp] theorem beginSecondHalf_phase (s : State) : (beginSecondHalf s).phase = true := rfl
@[simp] theorem beginSecondHalf_hc (s : State) : (beginSecondHalf s).hc = half s.cur := rfl
@[simp] theorem beginSecondHalf_line (s : State) : (beginSecondHalf s).line = !s.line := rfl
@[simp] theorem beginSecondHalf_q (s : State) : (beginSecondHalf s).q = s.q := rfl
@[simp] theorem beginSecondHalf_qovf (s : State) : (beginSecondHalf s).qovf = s.qovf := rfl
@[simp] theorem beginSecondHalf_reg (s : State) : (beginSecondHalf s).reg = s.reg := rfl
@[simp] theorem beginSecondHalf_cursor (s : State) : (beginSecondHalf s).cursor = s.cursor := rfl
@[simp] theorem beginSecondHalf_schedRun (s : State) : (beginSecondHalf s).schedRun = s.schedRun := rfl
@[simp] theorem beginSecondHalf_tcnt (s : State) : (beginSecondHalf s).tcnt = s.tcnt := rfl
@[simp] theorem beginSecondHalf_anom (s : State) : (beginSecondHalf s).anom = s.anom := rfl
@[simp] theorem beginSecondHalf_errFatal (s : State) : (beginSecondHalf s).errFatal = s.errFatal := rfl
@[simp] theorem beginSecondHalf_pwr (s : State) : (beginSecondHalf s).pwr = s.pwr := rfl
@[simp] theorem beginSecondHalf_port (s : State) : (beginSecondHalf s).port = s.port := rfl
@[simp] theorem beginSecondHalf_ret (s : State) : (beginSecondHalf s).ret = s.ret := rfl

/-! ## powerOn -/

@[simp] theorem powerOn_run (s : State) : (powerOn s).run = true := rfl
@[simp] theorem powerOn_st (s : State) : (powerOn s).st = s.st := rfl
@[simp] theorem powerOn_sr (s : State) : (powerOn s).sr = s.sr := rfl
@[simp] theorem powerOn_nbits (s : State) : (powerOn s).nbits = s.nbits := rfl
@[simp] theorem powerOn_finalMark (s : State) : (powerOn s).finalMark = s.finalMark := rfl
@[simp] theorem powerOn_cur (s : State) : (powerOn s).cur = s.cur := rfl
@[simp] theorem powerOn_phase (s : State) : (powerOn s).phase = s.phase := rfl
@[simp] theorem powerOn_hc (s : State) : (powerOn s).hc = s.hc := rfl
@[simp] theorem powerOn_line (s : State) : (powerOn s).line = s.line := rfl
@[simp] theorem powerOn_q (s : State) : (powerOn s).q = s.q := rfl
@[simp] theorem powerOn_qovf (s : State) : (powerOn s).qovf = s.qovf := rfl
@[simp] theorem powerOn_reg (s : State) : (powerOn s).reg = s.reg := rfl
@[simp] theorem powerOn_cursor (s : State) : (powerOn s).cursor = 0 := rfl
@[simp] theorem powerOn_schedRun (s : State) : (powerOn s).schedRun = true := rfl
@[simp] theorem powerOn_tcnt (s : State) : (powerOn s).tcnt = 15000 := rfl
@[simp] theorem powerOn_anom (s : State) : (powerOn s).anom = s.anom := rfl
@[simp] theorem powerOn_errFatal (s : State) : (powerOn s).errFatal = s.errFatal := rfl
@[simp] theorem powerOn_pwr (s : State) : (powerOn s).pwr = true := rfl
@[simp] theorem powerOn_port (s : State) : (powerOn s).port = s.port := rfl
@[simp] theorem powerOn_ret (s : State) : (powerOn s).ret = .resp (respWord true true) := rfl

/-! ## powerOff -/

@[simp] theorem powerOff_run (s : State) : (powerOff s).run = false := rfl
@[simp] theorem powerOff_st (s : State) : (powerOff s).st = s.st := rfl
@[simp] theorem powerOff_sr (s : State) : (powerOff s).sr = s.sr := rfl
@[simp] theorem powerOff_nbits (s : State) : (powerOff s).nbits = s.nbits := rfl
@[simp] theorem powerOff_finalMark (s : State) : (powerOff s).finalMark = s.finalMark := rfl
@[simp] theorem powerOff_cur (s : State) : (powerOff s).cur = s.cur := rfl
@[simp] theorem powerOff_phase (s : State) : (powerOff s).phase = s.phase := rfl
@[simp] theorem powerOff_hc (s : State) : (powerOff s).hc = s.hc := rfl
@[simp] theorem powerOff_line (s : State) : (powerOff s).line = s.line := rfl
@[simp] theorem powerOff_q (s : State) : (powerOff s).q = s.q := rfl
@[simp] theorem powerOff_qovf (s : State) : (powerOff s).qovf = s.qovf := rfl
@[simp] theorem powerOff_reg (s : State) : (powerOff s).reg = s.reg := rfl
@[simp] theorem powerOff_cursor (s : State) : (powerOff s).cursor = s.cursor := rfl
@[simp] theorem powerOff_schedRun (s : State) : (powerOff s).schedRun = false := rfl
@[simp] theorem powerOff_tcnt (s : State) : (powerOff s).tcnt = s.tcnt := rfl
@[simp] theorem powerOff_anom (s : State) : (powerOff s).anom = s.anom := rfl
@[simp] theorem powerOff_errFatal (s : State) : (powerOff s).errFatal = s.errFatal := rfl
@[simp] theorem powerOff_pwr (s : State) : (powerOff s).pwr = false := rfl
@[simp] theorem powerOff_port (s : State) : (powerOff s).port = s.port := rfl
@[simp] theorem powerOff_ret (s : State) : (powerOff s).ret = .resp (respWord true false) := rfl

/-! ## resetCore -/

@[simp] theorem resetCore_run (s : State) : (resetCore s).run = State.reset.run := rfl
@[simp] theorem resetCore_st (s : State) : (resetCore s).st = State.reset.st := rfl
@[simp] theorem resetCore_sr (s : State) : (resetCore s).sr = State.reset.sr := rfl
@[simp] theorem resetCore_nbits (s : State) : (resetCore s).nbits = State.reset.nbits := rfl
@[simp] theorem resetCore_finalMark (s : State) : (resetCore s).finalMark = State.reset.finalMark := rfl
@[simp] theorem resetCore_cur (s : State) : (resetCore s).cur = State.reset.cur := rfl
@[simp] theorem resetCore_phase (s : State) : (resetCore s).phase = State.reset.phase := rfl
@[simp] theorem resetCore_hc (s : State) : (resetCore s).hc = State.reset.hc := rfl
@[simp] theorem resetCore_line (s : State) : (resetCore s).line = State.reset.line := rfl
@[simp] theorem resetCore_q (s : State) : (resetCore s).q = State.reset.q := rfl
@[simp] theorem resetCore_qovf (s : State) : (resetCore s).qovf = State.reset.qovf := rfl
@[simp] theorem resetCore_reg (s : State) : (resetCore s).reg = State.reset.reg := rfl
@[simp] theorem resetCore_cursor (s : State) : (resetCore s).cursor = State.reset.cursor := rfl
@[simp] theorem resetCore_schedRun (s : State) : (resetCore s).schedRun = State.reset.schedRun := rfl
@[simp] theorem resetCore_tcnt (s : State) : (resetCore s).tcnt = State.reset.tcnt := rfl
@[simp] theorem resetCore_anom (s : State) : (resetCore s).anom = State.reset.anom := rfl
@[simp] theorem resetCore_errFatal (s : State) : (resetCore s).errFatal = State.reset.errFatal := rfl
@[simp] theorem resetCore_pwr (s : State) : (resetCore s).pwr = State.reset.pwr := rfl
@[simp] theorem resetCore_port (s : State) : (resetCore s).port = s.port := rfl
@[simp] theorem resetCore_ret (s : State) : (resetCore s).ret = State.reset.ret := rfl

end Sys2Proof.Machine
end

