-- ==== Sys2Proof/Laws/Ops.lean ====
section
/-! SUPPORT. What each shared operation can do, said once: one spec lemma an operation, cited instead of unfolding it. -/

namespace Sys2Proof.Machine

/-! ## Parameters -/

/-- `HALF_ONE` and `HALF_ZERO` follow from the durations and the clock (R108). -/
theorem half_cycles_from_microseconds :
    Config.halfOne * Config.tClkNs = Config.halfOneUs * 1000 ∧
    Config.halfZero * Config.tClkNs = Config.halfZeroUs * 1000 ∧
    Config.tickPeriod * Config.tClkNs = Config.tickPeriodMs * 1000000 := by decide

theorem half_eq (b : Bool) : half b = if b then 58 else 100 := by cases b <;> rfl

theorem half_pos (b : Bool) : 58 ≤ (half b).toNat := by cases b <;> decide

theorem half_le (b : Bool) : (half b).toNat ≤ 100 := by cases b <;> decide

/-! ## The queue -/

theorem qPush_of_room {w : Word} {s : State} (h : s.q.length < 8) : qPush w s = { s with q := s.q ++ [w] } := by
  simp [qPush, qCount, h]

theorem qPush_of_full {w : Word} {s : State} (h : 8 ≤ s.q.length) : qPush w s = { s with qovf := true } := by
  have : ¬ s.q.length < 8 := by omega
  simp [qPush, qCount, this, setQovf]

@[simp] theorem enqueue_nil (s : State) : enqueue [] s = s := rfl

@[simp] theorem enqueue_cons (w : Word) (ws : List Word) (s : State) :
    enqueue (w :: ws) s = enqueue ws (qPush w s) := rfl

/-- A list that fits is appended whole (R93). -/
theorem enqueue_of_fits (ws : List Word) : ∀ s : State, s.q.length + ws.length ≤ 8 →
    enqueue ws s = { s with q := s.q ++ ws } := by
  induction ws with
  | nil => intro s _; simp
  | cons w ws ih =>
    intro s h
    have h1 : s.q.length < 8 := by simp at h; omega
    rw [enqueue_cons, qPush_of_room h1, ih _ (by simp at h ⊢; omega)]
    simp

/-- ENQUEUE writes Q and QOVF only: it appends to Q, and QOVF is never cleared (R93). -/
theorem enqueue_frame (ws : List Word) : ∀ s : State, ∃ (vs : List Word) (o : Bool),
    enqueue ws s = { s with q := s.q ++ vs, qovf := o } ∧ (s.qovf = true → o = true) := by
  induction ws with
  | nil => intro s; exact ⟨[], s.qovf, by simp⟩
  | cons w ws ih =>
    intro s
    by_cases h : s.q.length < 8
    · obtain ⟨vs, o, e, ho⟩ := ih (qPush w s)
      rw [qPush_of_room h] at e ho
      exact ⟨w :: vs, o, by rw [enqueue_cons, qPush_of_room h, e]; simp, ho⟩
    · obtain ⟨vs, o, e, ho⟩ := ih (qPush w s)
      rw [qPush_of_full (by omega)] at e ho
      exact ⟨vs, o, by rw [enqueue_cons, qPush_of_full (by omega), e], fun _ => ho rfl⟩

/-- The queue never outgrows its capacity (R34 f). -/
theorem enqueue_length_le (ws : List Word) : ∀ s : State, s.q.length ≤ 8 → (enqueue ws s).q.length ≤ 8 := by
  induction ws with
  | nil => intro s h; exact h
  | cons w ws ih =>
    intro s h
    rw [enqueue_cons]
    apply ih
    by_cases h1 : s.q.length < 8
    · rw [qPush_of_room h1]; simp; omega
    · rw [qPush_of_full (by omega)]; exact h

/-! ## The engine -/

theorem shiftOut_of_bits {s : State} (h : s.nbits ≠ 0) :
    shiftOut s = { s with cur := s.sr.msb, sr := s.sr <<< 1, nbits := s.nbits - 1 } := by
  simp only [shiftOut, nbitsPred, if_neg h]

/-- LOAD_WORD is one of two loads (R97). -/
theorem loadWord_cases (w : Word) (s : State) :
    (w.getLsbD 31 = true ∧ loadWord w s = loadPp (w.extractLsb' 0 16) s) ∨
    (w.getLsbD 31 = false ∧ loadWord w s = loadData (w.extractLsb' 0 9) (w.getLsbD 30) s) := by
  cases h : w.getLsbD 31
  · right; refine ⟨rfl, ?_⟩; simp only [loadWord, Config.ppBit, h, Config.fbBit]; rfl
  · left; refine ⟨rfl, ?_⟩; simp only [loadWord, Config.ppBit, h, if_true]

/-- NEXT_BIT does one of four things (R95). -/
theorem nextBit_cases (s : State) :
    (s.nbits ≠ 0 ∧ nextBit s = shiftOut s) ∨
    (s.nbits = 0 ∧ s.st = .emitStartAndByte ∧ s.finalMark = true ∧
      nextBit s = { s with st := .emitEndBit, cur := true, finalMark := false }) ∨
    (∃ w rest, s.nbits = 0 ∧ ¬ (s.st = .emitStartAndByte ∧ s.finalMark = true) ∧ s.q = w :: rest ∧
      nextBit s = shiftOut (loadWord w { s with q := rest })) ∨
    (s.nbits = 0 ∧ ¬ (s.st = .emitStartAndByte ∧ s.finalMark = true) ∧ s.q = [] ∧
      nextBit s = { s with st := .awaitWord, cur := false }) := by
  by_cases h : s.nbits = 0
  · by_cases h1 : s.st = .emitStartAndByte ∧ s.finalMark = true
    · right; left; exact ⟨h, h1.1, h1.2, by simp only [nextBit, h, ne_eq, not_true_eq_false, if_false, h1, and_self, if_true]⟩
    · right; right
      cases hq : s.q with
      | nil => right; exact ⟨h, h1, rfl, by simp only [nextBit, h, ne_eq, not_true_eq_false, if_false, h1, hq]⟩
      | cons w rest =>
        left; exact ⟨w, rest, h, h1, rfl, by simp only [nextBit, h, ne_eq, not_true_eq_false, if_false, h1, hq]⟩
  · left; exact ⟨h, by simp only [nextBit, ne_eq, h, not_false_eq_true, if_true]⟩

/-- ENGINE_CLOCK does one of four things (R94). -/
theorem engineClock_cases (s : State) :
    (s.run = false ∧ engineClock s = s) ∨
    (s.run = true ∧ 2 ≤ s.hc.toNat ∧ engineClock s = { s with hc := s.hc - 1 }) ∨
    (s.run = true ∧ s.hc = 1 ∧ s.phase = false ∧ engineClock s = beginSecondHalf s) ∨
    (s.run = true ∧ (s.hc = 0 ∨ (s.hc = 1 ∧ s.phase = true)) ∧ engineClock s = beginBit (nextBit s)) := by
  cases h : s.run
  · left; exact ⟨rfl, by simp only [engineClock, h, if_true]⟩
  · right
    by_cases h2 : 2 ≤ s.hc.toNat
    · left; exact ⟨rfl, h2, by simp only [engineClock, h, h2, Bool.true_eq_false, if_false, if_true]⟩
    · right
      by_cases h3 : s.hc = 1 ∧ s.phase = false
      · left
        exact ⟨rfl, h3.1, h3.2, by
          simp only [engineClock, h, h2, Bool.true_eq_false, if_false]
          rw [if_pos h3]⟩
      · right
        refine ⟨rfl, ?_, by
          simp only [engineClock, h, h2, Bool.true_eq_false, if_false]
          rw [if_neg h3]⟩
        by_cases h0 : s.hc = 0
        · exact .inl h0
        · have h1 : s.hc = 1 := by
            have := s.hc.isLt
            apply BitVec.eq_of_toNat_eq
            have h0' : s.hc.toNat ≠ 0 := fun e => h0 (BitVec.eq_of_toNat_eq (by simpa using e))
            simp; omega
          refine .inr ⟨h1, ?_⟩
          cases hp : s.phase
          · exact absurd ⟨h1, hp⟩ h3
          · rfl

/-- NEXT_BIT writes ST, SR, NBITS, FINAL, CUR and Q only, and takes at most the head of Q (R95, R106). -/
theorem nextBit_frame (s : State) : ∃ (a : EngineSt) (b : BitVec 16) (c : BitVec 5) (f v : Bool) (q' : List Word),
    nextBit s = { s with st := a, sr := b, nbits := c, finalMark := f, cur := v, q := q' } ∧
    (q' = s.q ∨ q' = s.q.tail) := by
  rcases nextBit_cases s with ⟨_, e⟩ | ⟨_, _, _, e⟩ | ⟨w, rest, _, _, hq, e⟩ | ⟨_, _, _, e⟩ <;> rw [e]
  · exact ⟨s.st, _, _, s.finalMark, _, s.q, rfl, .inl rfl⟩
  · exact ⟨_, s.sr, s.nbits, _, _, s.q, rfl, .inl rfl⟩
  · rcases loadWord_cases w { s with q := rest } with ⟨_, e'⟩ | ⟨_, e'⟩ <;> rw [e']
    · exact ⟨_, _, _, _, _, rest, rfl, .inr (by rw [hq]; rfl)⟩
    · exact ⟨_, _, _, _, _, rest, rfl, .inr (by rw [hq]; rfl)⟩
  · exact ⟨_, s.sr, s.nbits, s.finalMark, _, s.q, rfl, .inl rfl⟩

/-- ENGINE_CLOCK writes the engine's registers, LINE and Q only, and takes at most the head of Q (R94). -/
theorem engineClock_frame (s : State) : ∃ (a : EngineSt) (b : BitVec 16) (c : BitVec 5) (f v p l : Bool) (h : BitVec 7)
    (q' : List Word),
    engineClock s = { s with st := a, sr := b, nbits := c, finalMark := f, cur := v, phase := p, line := l, hc := h,
                             q := q' } ∧
    (q' = s.q ∨ q' = s.q.tail) := by
  rcases engineClock_cases s with ⟨_, e⟩ | ⟨_, _, e⟩ | ⟨_, _, _, e⟩ | ⟨_, _, e⟩ <;> rw [e]
  · exact ⟨s.st, s.sr, s.nbits, s.finalMark, s.cur, s.phase, s.line, s.hc, s.q, rfl, .inl rfl⟩
  · exact ⟨s.st, s.sr, s.nbits, s.finalMark, s.cur, s.phase, s.line, _, s.q, rfl, .inl rfl⟩
  · exact ⟨s.st, s.sr, s.nbits, s.finalMark, s.cur, _, _, _, s.q, rfl, .inl rfl⟩
  · obtain ⟨a, b, c, f, v, q', e', hq⟩ := nextBit_frame s
    rw [e']
    exact ⟨a, b, c, f, v, _, _, _, q', rfl, hq⟩

/-! ## The scheduler -/

@[simp] theorem frame_length (p : List Byte) : (frame p).length = p.length + 2 := by simp [frame]

/-- SEND does one of three things (R144). -/
theorem send_cases (p : List Byte) (s : State) :
    (5 < p.length ∧ send p s = { s with errFatal := true }) ∨
    (p.length ≤ 5 ∧ 8 < s.q.length + (p.length + 2) ∧ send p s = { s with anom := true }) ∨
    (p.length ≤ 5 ∧ s.q.length + (p.length + 2) ≤ 8 ∧ send p s = { s with q := s.q ++ frame p }) := by
  by_cases h : 5 < p.length
  · left; exact ⟨h, by simp [send, h, raise, setErrFatal]⟩
  · right
    have h5 : p.length ≤ 5 := by omega
    by_cases h1 : 8 < s.q.length + (p.length + 2)
    · left
      have : 8 - s.q.length < p.length + 2 := by omega
      exact ⟨h5, h1, by simp [send, h, qFree, qCount, this, setAnom]⟩
    · right
      have h2 : ¬ 8 - s.q.length < p.length + 2 := by omega
      refine ⟨h5, by omega, ?_⟩
      rw [← enqueue_of_fits (frame p) s (by rw [frame_length]; omega)]
      simp [send, h, qFree, qCount, h2]

/-- SEND writes Q, ANOM and ERR_FATAL only: it appends to Q and clears no flag (R144). -/
theorem send_frame (p : List Byte) (s : State) : ∃ (ws : List Word) (a e : Bool),
    send p s = { s with q := s.q ++ ws, anom := a, errFatal := e } ∧
    (s.anom = true → a = true) ∧ (s.errFatal = true → e = true) ∧ (p.length ≤ 5 → e = s.errFatal) := by
  rcases send_cases p s with ⟨h, e⟩ | ⟨_, _, e⟩ | ⟨_, _, e⟩ <;> rw [e]
  · exact ⟨[], s.anom, true, by simp, id, fun _ => rfl, fun h' => absurd h (by omega)⟩
  · exact ⟨[], true, s.errFatal, by simp, fun _ => rfl, id, fun _ => rfl⟩
  · exact ⟨frame p, s.anom, s.errFatal, by simp, id, id, fun _ => rfl⟩

theorem tickIndex_lt {s : State} (h : s.reg ≠ []) : (tickIndex s).toNat < s.reg.length := by
  have := List.length_pos_iff.mpr h
  simp only [tickIndex]
  split
  · simpa using this
  · omega

/-- TICK sends the idle packet, or the entry under the cursor after moving the cursor past it (R143). -/
theorem tick_cases (s : State) :
    (s.reg = [] ∧ tick s = send [0xFF, 0x00] s) ∨
    (∃ e, s.reg[(tickIndex s).toNat]? = some e ∧ e ∈ s.reg ∧
      tick s = send e.payload { s with cursor := tickIndex s + 1 }) := by
  cases h : s.reg with
  | nil => left; exact ⟨rfl, by simp [tick, h]⟩
  | cons e0 rest =>
    right
    have hlt : (tickIndex s).toNat < s.reg.length := tickIndex_lt (by simp [h])
    refine ⟨s.reg[(tickIndex s).toNat], by rw [← h]; simp [hlt], by rw [← h]; exact List.getElem_mem _, ?_⟩
    have hg : s.reg.getD (tickIndex s).toNat e0 = s.reg[(tickIndex s).toNat] := by simp [List.getD, hlt]
    rw [← hg]
    simp only [tick, h]

/-- TICK writes CURSOR, Q, ANOM and ERR_FATAL only (R143, R144). -/
theorem tick_frame (s : State) : ∃ (c : BitVec 15) (ws : List Word) (a e : Bool),
    tick s = { s with cursor := c, q := s.q ++ ws, anom := a, errFatal := e } ∧
    (s.anom = true → a = true) ∧ (s.errFatal = true → e = true) := by
  rcases tick_cases s with ⟨_, h⟩ | ⟨e, _, _, h⟩ <;> rw [h]
  · obtain ⟨ws, a, e, h', ha, he, _⟩ := send_frame [0xFF, 0x00] s
    exact ⟨s.cursor, ws, a, e, h', ha, he⟩
  · obtain ⟨ws, a, f, h', ha, he, _⟩ := send_frame e.payload { s with cursor := tickIndex s + 1 }
    exact ⟨tickIndex s + 1, ws, a, f, h', ha, he⟩

/-- TIMER_CLOCK does one of three things (R148). -/
theorem timerClock_cases (s : State) :
    (s.schedRun = false ∧ timerClock s = s) ∨
    (s.schedRun = true ∧ 2 ≤ s.tcnt.toNat ∧ timerClock s = { s with tcnt := s.tcnt - 1 }) ∨
    (s.schedRun = true ∧ s.tcnt.toNat ≤ 1 ∧ timerClock s = tick { s with tcnt := 15000 }) := by
  cases h : s.schedRun
  · left; exact ⟨rfl, by simp only [timerClock, h, if_true]⟩
  · right
    by_cases h2 : 2 ≤ s.tcnt.toNat
    · left; exact ⟨rfl, h2, by simp only [timerClock, h, h2, Bool.true_eq_false, if_false, if_true]⟩
    · right; exact ⟨rfl, by omega, by simp only [timerClock, h, h2, Bool.true_eq_false, if_false]; rfl⟩

/-- TIMER_CLOCK writes TCNT and what TICK writes (R148). -/
theorem timerClock_frame (s : State) : ∃ (n : BitVec 14) (c : BitVec 15) (ws : List Word) (a e : Bool),
    timerClock s = { s with tcnt := n, cursor := c, q := s.q ++ ws, anom := a, errFatal := e } ∧
    (s.anom = true → a = true) ∧ (s.errFatal = true → e = true) := by
  rcases timerClock_cases s with ⟨_, h⟩ | ⟨_, _, h⟩ | ⟨_, _, h⟩ <;> rw [h]
  · exact ⟨s.tcnt, s.cursor, [], s.anom, s.errFatal, by simp, id, id⟩
  · exact ⟨_, s.cursor, [], s.anom, s.errFatal, by simp; rfl, id, id⟩
  · obtain ⟨c, ws, a, e, h', ha, he⟩ := tick_frame { s with tcnt := 15000 }
    exact ⟨15000, c, ws, a, e, h', ha, he⟩

/-! ## The registry commands -/

/-- What SET_SPEED and SET_FG1 do with valid operands is one of three things (R141, R142). -/
theorem regUpdate_cases (c : Cls) (a : Addr) (f : Byte → Byte) (p : List Byte) (s : State) :
    (∃ k, regFind c a s.reg = some k ∧
      regUpdate c a f p s = .next (respond true { s with reg := s.reg.modify k (Entry.patchLast f) })) ∨
    (regFind c a s.reg = none ∧ s.reg.length < 20478 ∧
      regUpdate c a f p s = .next (respond true { s with reg := s.reg ++ [freshEntry c a p] })) ∨
    (regFind c a s.reg = none ∧ 20478 ≤ s.reg.length ∧ regUpdate c a f p s = .refused .registryFull) := by
  cases h : regFind c a s.reg with
  | some k => left; exact ⟨k, rfl, by simp only [regUpdate, h]⟩
  | none =>
    right
    by_cases hd : s.reg.length < 20478
    · left; exact ⟨rfl, hd, by simp only [regUpdate, h]; exact if_pos hd⟩
    · right; exact ⟨rfl, by omega, by simp only [regUpdate, h]; exact if_neg hd⟩

/-- SET_SPEED either rejects its operands, changing nothing but the response, or updates the registry (R141). -/
theorem setSpeed_cases (a : Addr) (d v : Byte) (s : State) :
    ((validAddr a && validDir d && validSpeed v) = false ∧ setSpeed a d v s = .next (respond false s)) ∨
    ((validAddr a && validDir d && validSpeed v) = true ∧
      setSpeed a d v s = regUpdate .speed a (fun _ => dsByte d v) (addrBytes a ++ encSpeed d v) s) := by
  cases h : (validAddr a && validDir d && validSpeed v)
  · left; exact ⟨rfl, by simp only [setSpeed, h, if_true, raise]⟩
  · right; exact ⟨rfl, by simp only [setSpeed, h, Bool.true_eq_false, if_false]⟩

/-- SET_FG1 either rejects its operands, changing nothing but the response, or updates the registry (R142). -/
theorem setFg1_cases (a : Addr) (i x : Byte) (s : State) :
    ((validAddr a && validFn i && validState x) = false ∧ setFg1 a i x s = .next (respond false s)) ∨
    ((validAddr a && validFn i && validState x) = true ∧
      setFg1 a i x s = regUpdate .fg1 a (fg1Patch i x) (addrBytes a ++ encFg1 i x) s) := by
  cases h : (validAddr a && validFn i && validState x)
  · left; exact ⟨rfl, by simp only [setFg1, h, if_true, raise]⟩
  · right; exact ⟨rfl, by simp only [setFg1, h, Bool.true_eq_false, if_false]⟩

/-- A registry update that answers a next state wrote REG and the response only. -/
theorem regUpdate_frame {c : Cls} {a : Addr} {f : Byte → Byte} {p : List Byte} {s t : State}
    (h : regUpdate c a f p s = .next t) : ∃ g, t = { s with reg := g, ret := .resp (respWord true s.pwr) } := by
  rcases regUpdate_cases c a f p s with ⟨k, _, e⟩ | ⟨_, _, e⟩ | ⟨_, _, e⟩ <;> rw [e] at h
  · exact ⟨_, (Host.Outcome.next.inj h).symm⟩
  · exact ⟨_, (Host.Outcome.next.inj h).symm⟩
  · cases h

/-- SET_SPEED and SET_FG1 write REG and the response only (R141 a, R142 a). -/
theorem setSpeed_frame {a : Addr} {d v : Byte} {s t : State} (h : setSpeed a d v s = .next t) :
    ∃ g r, t = { s with reg := g, ret := r } := by
  rcases setSpeed_cases a d v s with ⟨_, e⟩ | ⟨_, e⟩ <;> rw [e] at h
  · exact ⟨s.reg, _, (Host.Outcome.next.inj h).symm⟩
  · obtain ⟨g, rfl⟩ := regUpdate_frame h
    exact ⟨g, _, rfl⟩

theorem setFg1_frame {a : Addr} {i x : Byte} {s t : State} (h : setFg1 a i x s = .next t) :
    ∃ g r, t = { s with reg := g, ret := r } := by
  rcases setFg1_cases a i x s with ⟨_, e⟩ | ⟨_, e⟩ <;> rw [e] at h
  · exact ⟨s.reg, _, (Host.Outcome.next.inj h).symm⟩
  · obtain ⟨g, rfl⟩ := regUpdate_frame h
    exact ⟨g, _, rfl⟩

/-- EXEC_CMD writes what the command's operation writes (R166). -/
theorem execCmdWord_frame {w : CmdWord} {s t : State} (h : execCmdWord w s = .next t) :
    t = powerOn s ∨ t = powerOff s ∨ ∃ g r, t = { s with reg := g, ret := r } := by
  simp only [execCmdWord] at h
  split at h
  · exact .inr (.inr ⟨s.reg, _, (Host.Outcome.next.inj h).symm⟩)
  · exact .inr (.inl (Host.Outcome.next.inj h).symm)
  · exact .inl (Host.Outcome.next.inj h).symm
  · exact .inr (.inr (setSpeed_frame h))
  · exact .inr (.inr (setFg1_frame h))
  · exact .inr (.inr ⟨s.reg, _, (Host.Outcome.next.inj h).symm⟩)

/-! ## The step -/

/-- A decoded command writes what its operation writes (R73, R166). -/
theorem exec_decodeCommand_frame {w : CmdWord} {s t : State} (h : exec (decodeCommand w) s = .next t) :
    t = powerOn s ∨ t = powerOff s ∨ ∃ g r, t = { s with reg := g, ret := r } := by
  simp only [decodeCommand] at h
  split at h
  · exact .inr (.inr ⟨s.reg, _, (Host.Outcome.next.inj h).symm⟩)
  · exact .inr (.inl (Host.Outcome.next.inj h).symm)
  · exact .inl (Host.Outcome.next.inj h).symm
  · exact .inr (.inr (setSpeed_frame h))
  · exact .inr (.inr (setFg1_frame h))
  · exact .inr (.inr ⟨s.reg, _, (Host.Outcome.next.inj h).symm⟩)

/-- A step is a clock step, a command, a raw push, a raw enqueue or a reset (R46). -/
theorem step_cases {s t : State} (h : step s = .next t) :
    (∃ rest, (s.port = [] ∧ rest = [] ∨ s.port = .clock :: rest) ∧ t = clockStep { s with port := rest }) ∨
    (∃ w rest, s.port = .cmd w :: rest ∧ exec (decodeCommand w) { s with port := rest } = .next t) ∨
    (∃ w rest, s.port = .push w :: rest ∧ t = qPush w { s with port := rest }) ∨
    (∃ ws rest, s.port = .enqueue ws :: rest ∧ t = enqueue ws { s with port := rest }) ∨
    (∃ rest, s.port = .rst :: rest ∧ t = { State.reset with port := rest }) := by
  unfold step at h
  split at h
  · rename_i hp
    left; exact ⟨[], .inl ⟨hp, rfl⟩, by rw [← Host.Outcome.next.inj h, ← hp]⟩
  · rename_i rest hp
    left; exact ⟨rest, .inr hp, (Host.Outcome.next.inj h).symm⟩
  · rename_i w rest hp
    right; left; exact ⟨w, rest, hp, h⟩
  · rename_i w rest hp
    right; right; left; exact ⟨w, rest, hp, (Host.Outcome.next.inj h).symm⟩
  · rename_i ws rest hp
    right; right; right; left; exact ⟨ws, rest, hp, (Host.Outcome.next.inj h).symm⟩
  · rename_i rest hp
    right; right; right; right; exact ⟨rest, hp, (Host.Outcome.next.inj h).symm⟩

end Sys2Proof.Machine
end

