-- ==== Sys2Proof/Laws/PerInstr.lean ====
section
/-! SUPPORT. The per-instruction family EncodingWidth: how wide each row of spec/opcode_table.json is (32 bits a control
word, R60; 40 bits a command word, R72; 16 + 9 x (payload length + 1) + 1 line bits a packet, R66; no encoding, R77). -/

namespace Sys2Proof.Laws.EncodingWidth

/-- The number of bits of an instruction's encoding as the opcode table gives it. -/
def tableBits : Instr → Option Nat
  | .pp _ _ | .db _ _ _ | .dbf _ _ _ | .preamble _ | .pad _ => some 32
  | .powerQuery _ _ _ _ | .powerOff _ _ _ _ | .powerOn _ _ _ _ => some 40
  | .setSpeed _ _ _ _ | .setFg1 _ _ _ _ | .reservedOp _ _ _ _ _ => some 40
  | .pktSpeedShort _ _ _ => some 53
  | .pktSpeedLong _ _ _ => some 62
  | .pktFg1Short _ _ => some 44
  | .pktFg1Long _ _ => some 53
  | .pktIdle => some 44
  | .start | .stop | .qPush _ | .enqueue _ | .engineClock | .nextBit | .shiftOut | .loadWord _ => none
  | .validAddr _ | .validSpeed _ | .validDir _ | .validFn _ | .validState _ | .addrBytes _ => none
  | .encSpeed _ _ | .fnMask _ | .encFg1 _ _ | .checksum _ | .frame _ | .regFind _ _ => none
  | .tick | .send _ | .timerClock | .clockStep | .execCmd _ => none

/-- The encoder writes as many bits as the table gives the row, and none for an internal operation. -/
def Statement (i : Instr) : Prop := (encode i).map Code.nbits = tableBits i

/-- One byte takes nine line bits (R65). -/
theorem length_wireByte (b : Byte) : (wireByte b).length = 9 := by simp [wireByte, bitsOf]

/-- A packet of n bytes, checksum included, takes 16 + 9 n + 1 line bits (R65). -/
theorem length_wirePacket (bytes : List Byte) : (wirePacket bytes).length = 17 + 9 * bytes.length := by
  simp only [wirePacket, List.length_append, List.length_replicate, List.length_flatMap, length_wireByte,
    List.map_const', List.sum_replicate, List.length_cons, List.length_nil, smul_eq_mul]
  omega

theorem pp : ∀ r b, Statement (.pp r b) := fun _ _ => rfl
theorem db : ∀ r s d, Statement (.db r s d) := fun _ _ _ => rfl
theorem dbf : ∀ r s d, Statement (.dbf r s d) := fun _ _ _ => rfl
theorem preamble : ∀ r, Statement (.preamble r) := fun _ => rfl
theorem pad : ∀ r, Statement (.pad r) := fun _ => rfl
theorem powerQuery : ∀ r a x y, Statement (.powerQuery r a x y) := fun _ _ _ _ => rfl
theorem powerOff : ∀ r a x y, Statement (.powerOff r a x y) := fun _ _ _ _ => rfl
theorem powerOn : ∀ r a x y, Statement (.powerOn r a x y) := fun _ _ _ _ => rfl
theorem setSpeed : ∀ r a d v, Statement (.setSpeed r a d v) := fun _ _ _ _ => rfl
theorem setFg1 : ∀ r a i x, Statement (.setFg1 r a i x) := fun _ _ _ _ => rfl
theorem reservedOp : ∀ o r a x y, Statement (.reservedOp o r a x y) := fun _ _ _ _ _ => rfl
theorem pktSpeedShort : ∀ a d v, Statement (.pktSpeedShort a d v) := by
  intros; simp [Statement, encode, Code.nbits, length_wirePacket, tableBits]
theorem pktSpeedLong : ∀ a d v, Statement (.pktSpeedLong a d v) := by
  intros; simp [Statement, encode, Code.nbits, length_wirePacket, tableBits]
theorem pktFg1Short : ∀ a f, Statement (.pktFg1Short a f) := by
  intros; simp [Statement, encode, Code.nbits, length_wirePacket, tableBits]
theorem pktFg1Long : ∀ a f, Statement (.pktFg1Long a f) := by
  intros; simp [Statement, encode, Code.nbits, length_wirePacket, tableBits]
theorem pktIdle : Statement .pktIdle := by
  simp [Statement, encode, Code.nbits, length_wirePacket, tableBits]
theorem start : Statement .start := rfl
theorem stop : Statement .stop := rfl
theorem qPush : ∀ w, Statement (.qPush w) := fun _ => rfl
theorem enqueue : ∀ ws, Statement (.enqueue ws) := fun _ => rfl
theorem engineClock : Statement .engineClock := rfl
theorem nextBit : Statement .nextBit := rfl
theorem shiftOut : Statement .shiftOut := rfl
theorem loadWord : ∀ w, Statement (.loadWord w) := fun _ => rfl
theorem validAddr : ∀ a, Statement (.validAddr a) := fun _ => rfl
theorem validSpeed : ∀ v, Statement (.validSpeed v) := fun _ => rfl
theorem validDir : ∀ d, Statement (.validDir d) := fun _ => rfl
theorem validFn : ∀ i, Statement (.validFn i) := fun _ => rfl
theorem validState : ∀ x, Statement (.validState x) := fun _ => rfl
theorem addrBytes : ∀ a, Statement (.addrBytes a) := fun _ => rfl
theorem encSpeed : ∀ d v, Statement (.encSpeed d v) := fun _ _ => rfl
theorem fnMask : ∀ i, Statement (.fnMask i) := fun _ => rfl
theorem encFg1 : ∀ i x, Statement (.encFg1 i x) := fun _ _ => rfl
theorem checksum : ∀ p, Statement (.checksum p) := fun _ => rfl
theorem frame : ∀ p, Statement (.frame p) := fun _ => rfl
theorem regFind : ∀ c a, Statement (.regFind c a) := fun _ _ => rfl
theorem tick : Statement .tick := rfl
theorem send : ∀ p, Statement (.send p) := fun _ => rfl
theorem timerClock : Statement .timerClock := rfl
theorem clockStep : Statement .clockStep := rfl
theorem execCmd : ∀ w, Statement (.execCmd w) := fun _ => rfl

end Sys2Proof.Laws.EncodingWidth
end

