-- ==== Sys2Proof/Laws/Registry.lean ====
section
/-! SUPPORT. The registry's canonical form (spec/10_state.md R21, R34 g and h) and that every operation on it keeps the
form. -/

namespace Sys2Proof.Machine

/-! ## Entries -/

/-- A patch keeps the key and the length (R141 c, d). -/
theorem patchLast_frame (f : Byte → Byte) (e : Entry) :
    (e.patchLast f).cls = e.cls ∧ (e.patchLast f).addr = e.addr ∧ (e.patchLast f).len = e.len := by
  unfold Entry.patchLast
  split
  · exact ⟨rfl, rfl, rfl⟩
  · unfold Entry.setByte; split <;> exact ⟨rfl, rfl, rfl⟩

@[simp] theorem patchLast_key (f : Byte → Byte) (e : Entry) : (e.patchLast f).key = e.key := by
  obtain ⟨h1, h2, _⟩ := patchLast_frame f e
  simp only [Entry.key, h1, h2]

theorem payload_length (e : Entry) : e.payload.length = e.len.toNat := by simp [Entry.payload]

/-- A patch of an entry whose last byte exists replaces exactly that byte of the payload (R141, R142). -/
theorem patchLast_payload {f : Byte → Byte} {e : Entry} {p : List Byte} {b : Byte} (hl : e.len.toNat ≤ 4)
    (hp : e.payload = p ++ [b]) : (e.patchLast f).payload = p ++ [f b] := by
  have hlen := congrArg List.length hp
  rw [payload_length] at hlen
  simp only [List.length_append, List.length_singleton] at hlen
  have hlast : e.byteAt p.length = b := by
    have h := congrArg (fun l => l[p.length]?) hp
    simp only [Entry.payload, List.getElem?_map, List.getElem?_append_right (Nat.le_refl _), Nat.sub_self,
      List.getElem?_cons_zero] at h
    rw [List.getElem?_range (by omega)] at h
    simpa using h
  have hinit : (List.range p.length).map e.byteAt = p := by
    have h := congrArg (List.take p.length) hp
    simp only [Entry.payload, List.take_append_of_le_length (Nat.le_refl _), List.take_length] at h
    rw [← List.map_take, List.take_range, Nat.min_eq_left (by omega)] at h
    exact h
  have hpatch : e.patchLast f = e.setByte p.length (f (e.byteAt p.length)) := by
    simp only [Entry.patchLast, hlen]
  have hlen' : (e.setByte p.length (f (e.byteAt p.length))).len = e.len := by
    rw [← hpatch]; exact (patchLast_frame f e).2.2
  have hsame : ∀ j < p.length, (e.setByte p.length (f (e.byteAt p.length))).byteAt j = e.byteAt j := by
    intro j hj
    have : p.length < 4 := by omega
    generalize f (e.byteAt p.length) = v
    generalize p.length = n at *
    interval_cases n <;> interval_cases j <;> rfl
  have hnew : (e.setByte p.length (f (e.byteAt p.length))).byteAt p.length = f (e.byteAt p.length) := by
    have : p.length < 4 := by omega
    generalize f (e.byteAt p.length) = v
    generalize p.length = n at *
    interval_cases n <;> rfl
  rw [hpatch, Entry.payload, hlen', hlen, List.range_succ, List.map_append, List.map_singleton, hnew, hlast]
  congr 1
  rw [← hinit]
  simp only [List.length_map, List.length_range]
  apply List.map_congr_left
  intro j hj
  rw [← hlast]; exact hsame j (List.mem_range.mp hj)

/-- A fresh entry holds its payload, up to four bytes (R21). -/
theorem freshEntry_payload {c : Cls} {a : Addr} {p : List Byte} (h : p.length ≤ 4) :
    (freshEntry c a p).payload = p := by
  match p, h with
  | [], _ => rfl
  | [_], _ => rfl
  | [_, _], _ => rfl
  | [_, _, _], _ => rfl
  | [_, _, _, _], _ => rfl

theorem addrBytes_length_le (a : Addr) : (addrBytes a).length ≤ 2 := by
  unfold addrBytes; split <;> simp

/-! ## Valid operands -/

theorem validAddr_iff {a : Addr} : validAddr a = true ↔ 1 ≤ a.toNat ∧ a.toNat ≤ 10239 := by
  simp [validAddr]

theorem validFn_iff {i : Byte} : validFn i = true ↔ i.toNat ≤ 4 := by simp [validFn]

/-- A valid address survives being stored in 14 bits (R21). -/
theorem storedAddr_toNat {a : Addr} (h : a.toNat ≤ 10239) : (a.extractLsb' 0 14).toNat = a.toNat := by
  simp only [BitVec.extractLsb'_toNat, Nat.shiftRight_zero]
  exact Nat.mod_eq_of_lt (by omega)

theorem storedAddr_wide {a : Addr} (h : a.toNat ≤ 10239) : (a.extractLsb' 0 14).zeroExtend 16 = a := by
  apply BitVec.eq_of_toNat_eq
  simp only [BitVec.truncate_eq_setWidth, BitVec.toNat_setWidth, storedAddr_toNat h]
  exact Nat.mod_eq_of_lt a.isLt

/-! ## Function bytes: bits 7:5 stay `100` (R142 c) -/

theorem fg1Byte_shape {i x : Byte} (hi : i.toNat ≤ 4) : ∃ f : BitVec 5, fg1Byte i x = functionByte f := by
  have hm : ∀ n < 5, ∃ f : BitVec 5, 0x80#8 ||| fnMask (BitVec.ofNat 8 n) = functionByte f := by
    intro n hn
    interval_cases n
    · exact ⟨0x10, rfl⟩
    · exact ⟨0x01, rfl⟩
    · exact ⟨0x02, rfl⟩
    · exact ⟨0x04, rfl⟩
    · exact ⟨0x08, rfl⟩
  unfold fg1Byte
  split
  · obtain ⟨f, hf⟩ := hm i.toNat (by omega)
    exact ⟨f, by simpa using hf⟩
  · exact ⟨0, rfl⟩

theorem fg1Patch_shape {i x : Byte} (hi : i.toNat ≤ 4) (f : BitVec 5) :
    ∃ g : BitVec 5, fg1Patch i x (functionByte f) = functionByte g := by
  have hm : ∀ n < 5, ∀ f : BitVec 5,
      functionByte f ||| fnMask (BitVec.ofNat 8 n) = functionByte (f ||| (fnMask (BitVec.ofNat 8 n)).setWidth 5) ∧
      functionByte f &&& (0xFF#8 ^^^ fnMask (BitVec.ofNat 8 n)) =
        functionByte (f &&& (0xFF#8 ^^^ fnMask (BitVec.ofNat 8 n)).setWidth 5) := by
    intro n hn
    interval_cases n <;> decide
  obtain ⟨h1, h2⟩ := hm i.toNat (by omega) f
  simp only [BitVec.ofNat_toNat, BitVec.setWidth_eq] at h1 h2
  unfold fg1Patch
  split
  · exact ⟨_, h1⟩
  · exact ⟨_, h2⟩

/-! ## Lookup (R140) -/

/-- The entry at the index REG_FIND answers has the key. -/
theorem regFind_some {c : Cls} {a : Addr} {reg : List Entry} {k : Nat} (h : regFind c a reg = some k) :
    ∃ e, reg[k]? = some e ∧ e.cls = c ∧ e.addr.toNat = a.toNat := by
  obtain ⟨hk, hp, _⟩ := List.findIdx?_eq_some_iff_getElem.mp h
  refine ⟨reg[k], List.getElem?_eq_getElem hk, ?_⟩
  simpa [Entry.hasKey] using hp

/-- Where REG_FIND answers NONE no entry has the key. -/
theorem regFind_none {c : Cls} {a : Addr} {reg : List Entry} (h : regFind c a reg = none) :
    ∀ e ∈ reg, ¬ (e.cls = c ∧ e.addr.toNat = a.toNat) := by
  intro e he
  have := List.findIdx?_eq_none_iff.mp h e he
  simpa [Entry.hasKey] using this

/-! ## The canonical form is kept -/

theorem regOk_nil : RegOk [] where
  keys := List.nodup_nil
  entries := by intro e he; cases he
  depth := by decide

/-- The reset state's registry is in canonical form. -/
theorem reset_regOk : RegOk State.reset.reg := regOk_nil

/-- Appending an entry of a good shape under an absent key keeps the form. -/
theorem regOk_append {reg : List Entry} {e : Entry} (h : RegOk reg) (hk : e.key ∉ reg.map Entry.key) (he : e.Ok)
    (hd : reg.length < 20478) : RegOk (reg ++ [e]) where
  keys := by
    rw [List.map_append, List.map_singleton]
    exact List.nodup_append.mpr ⟨h.keys, by simp, by
      intro x hx y hy e'
      rw [List.mem_singleton.mp hy] at e'
      exact hk (e' ▸ hx)⟩
  entries := by
    intro f hf
    rcases List.mem_append.mp hf with hf | hf
    · exact h.entries f hf
    · rw [List.mem_singleton.mp hf]; exact he
  depth := by simp only [List.length_append, List.length_singleton, Config.regDepth]; omega

/-- Patching an entry, where the patch keeps its shape, keeps the form. -/
theorem regOk_modify {reg : List Entry} {k : Nat} {f : Byte → Byte} (h : RegOk reg)
    (hf : ∀ e, reg[k]? = some e → (e.patchLast f).Ok) : RegOk (reg.modify k (Entry.patchLast f)) where
  keys := by
    have : (reg.modify k (Entry.patchLast f)).map Entry.key = reg.map Entry.key := by
      apply List.ext_getElem?
      intro j
      simp only [List.getElem?_map, List.getElem?_modify]
      by_cases hj : k = j
      · subst hj; cases reg[k]? <;> simp
      · simp [hj]
    rw [this]; exact h.keys
  entries := by
    intro e he
    obtain ⟨j, hj⟩ := List.mem_iff_getElem?.mp he
    simp only [List.getElem?_modify] at hj
    cases hr : reg[j]? with
    | none => simp [hr] at hj
    | some e0 =>
      by_cases hkj : k = j
      · subst hkj
        simp only [hr, if_true, Option.map_eq_map, Option.map_some, Option.some.injEq] at hj
        rw [← hj]; exact hf e0 hr
      · simp only [hr, if_neg hkj, Option.map_eq_map, Option.map_some, Option.some.injEq] at hj
        rw [← hj]; exact h.entries e0 (List.mem_of_getElem? hr)
  depth := by rw [List.length_modify]; exact h.depth

/-- An entry of a good shape has at most four bytes (R150). -/
theorem Entry.Ok.payload_le {e : Entry} (h : e.Ok) : e.payload.length ≤ 4 := by
  obtain ⟨_, _, h⟩ := h
  have hb := addrBytes_length_le (e.addr.zeroExtend 16)
  cases hc : e.cls <;> simp only [hc] at h <;> obtain ⟨x, hx⟩ := h <;> rw [hx] <;> simp only [List.length_append, List.length_cons, List.length_nil] <;> omega

/-- A fresh entry's key is absent where REG_FIND finds none. -/
theorem freshEntry_key_absent {c : Cls} {a : Addr} {p : List Byte} {reg : List Entry} (ha : a.toNat ≤ 10239)
    (h : regFind c a reg = none) : (freshEntry c a p).key ∉ reg.map Entry.key := by
  intro hm
  obtain ⟨e, he, hk⟩ := List.mem_map.mp hm
  have hk' : e.cls = c ∧ e.addr = a.extractLsb' 0 14 := by
    simpa [Entry.key, freshEntry] using hk
  exact regFind_none h e he ⟨hk'.1, by rw [hk'.2, storedAddr_toNat ha]⟩

theorem freshEntry_ok_speed {a : Addr} {d v : Byte} (h1 : 1 ≤ a.toNat) (h2 : a.toNat ≤ 10239) :
    (freshEntry .speed a (addrBytes a ++ encSpeed d v)).Ok := by
  have hb := addrBytes_length_le a
  refine ⟨by simpa [freshEntry, storedAddr_toNat h2] using h1, by simpa [freshEntry, storedAddr_toNat h2] using h2, ?_⟩
  have hp : (freshEntry .speed a (addrBytes a ++ encSpeed d v)).payload = addrBytes a ++ encSpeed d v :=
    freshEntry_payload (by simp [encSpeed]; omega)
  exact ⟨dsByte d v, by rw [hp]; simp only [freshEntry, storedAddr_wide h2, encSpeed]⟩

theorem freshEntry_ok_fg1 {a : Addr} {i x : Byte} (h1 : 1 ≤ a.toNat) (h2 : a.toNat ≤ 10239) (hi : i.toNat ≤ 4) :
    (freshEntry .fg1 a (addrBytes a ++ encFg1 i x)).Ok := by
  have hb := addrBytes_length_le a
  refine ⟨by simpa [freshEntry, storedAddr_toNat h2] using h1, by simpa [freshEntry, storedAddr_toNat h2] using h2, ?_⟩
  have hp : (freshEntry .fg1 a (addrBytes a ++ encFg1 i x)).payload = addrBytes a ++ encFg1 i x :=
    freshEntry_payload (by simp [encFg1]; omega)
  obtain ⟨f, hf⟩ := fg1Byte_shape (x := x) hi
  exact ⟨f, by rw [hp, encFg1, hf]; simp only [freshEntry, storedAddr_wide h2]⟩

theorem patchLast_ok_speed {e : Entry} {f : Byte → Byte} (h : e.Ok) (hc : e.cls = .speed) : (e.patchLast f).Ok := by
  have h4 := h.payload_le
  rw [payload_length] at h4
  obtain ⟨h1, h2, h3⟩ := h
  obtain ⟨g1, g2, _⟩ := patchLast_frame f e
  simp only [hc] at h3
  obtain ⟨ds, hds⟩ := h3
  refine ⟨by rw [g2]; exact h1, by rw [g2]; exact h2, ?_⟩
  rw [g1, hc, g2]
  refine ⟨f ds, ?_⟩
  rw [show addrBytes (e.addr.zeroExtend 16) ++ [Config.speedSelector, ds] =
    (addrBytes (e.addr.zeroExtend 16) ++ [Config.speedSelector]) ++ [ds] by simp] at hds
  rw [patchLast_payload h4 hds]
  simp

theorem patchLast_ok_fg1 {e : Entry} {i x : Byte} (h : e.Ok) (hc : e.cls = .fg1) (hi : i.toNat ≤ 4) :
    (e.patchLast (fg1Patch i x)).Ok := by
  have h4 := h.payload_le
  rw [payload_length] at h4
  obtain ⟨h1, h2, h3⟩ := h
  obtain ⟨g1, g2, _⟩ := patchLast_frame (fg1Patch i x) e
  simp only [hc] at h3
  obtain ⟨b, hb⟩ := h3
  obtain ⟨g, hg⟩ := fg1Patch_shape (x := x) hi b
  refine ⟨by rw [g2]; exact h1, by rw [g2]; exact h2, ?_⟩
  rw [g1, hc, g2]
  exact ⟨g, by rw [patchLast_payload h4 hb, hg]⟩

/-- SET_SPEED keeps the canonical form (R141). -/
theorem setSpeed_regOk {a : Addr} {d v : Byte} {s t : State} (h : RegOk s.reg) (hx : setSpeed a d v s = .next t) :
    RegOk t.reg := by
  rcases setSpeed_cases a d v s with ⟨_, e⟩ | ⟨hv, e⟩ <;> rw [e] at hx
  · rw [← Host.Outcome.next.inj hx]; exact h
  · simp only [Bool.and_eq_true] at hv
    obtain ⟨h1, h2⟩ := validAddr_iff.mp hv.1.1
    rcases regUpdate_cases .speed a (fun _ => dsByte d v) (addrBytes a ++ encSpeed d v) s with
      ⟨k, hk, e'⟩ | ⟨hk, hd, e'⟩ | ⟨_, _, e'⟩ <;> rw [e'] at hx
    · rw [← Host.Outcome.next.inj hx]
      refine regOk_modify h fun e he => ?_
      obtain ⟨e1, he1, hc, _⟩ := regFind_some hk
      rw [he] at he1; cases he1
      exact patchLast_ok_speed (h.entries e (List.mem_of_getElem? he)) hc
    · rw [← Host.Outcome.next.inj hx]
      exact regOk_append h (freshEntry_key_absent h2 hk) (freshEntry_ok_speed h1 h2) hd
    · cases hx

/-- SET_FG1 keeps the canonical form (R142). -/
theorem setFg1_regOk {a : Addr} {i x : Byte} {s t : State} (h : RegOk s.reg) (hx : setFg1 a i x s = .next t) :
    RegOk t.reg := by
  rcases setFg1_cases a i x s with ⟨_, e⟩ | ⟨hv, e⟩ <;> rw [e] at hx
  · rw [← Host.Outcome.next.inj hx]; exact h
  · simp only [Bool.and_eq_true] at hv
    obtain ⟨h1, h2⟩ := validAddr_iff.mp hv.1.1
    have hi := validFn_iff.mp hv.1.2
    rcases regUpdate_cases .fg1 a (fg1Patch i x) (addrBytes a ++ encFg1 i x) s with
      ⟨k, hk, e'⟩ | ⟨hk, hd, e'⟩ | ⟨_, _, e'⟩ <;> rw [e'] at hx
    · rw [← Host.Outcome.next.inj hx]
      refine regOk_modify h fun e he => ?_
      obtain ⟨e1, he1, hc, _⟩ := regFind_some hk
      rw [he] at he1; cases he1
      exact patchLast_ok_fg1 (h.entries e (List.mem_of_getElem? he)) hc hi
    · rw [← Host.Outcome.next.inj hx]
      exact regOk_append h (freshEntry_key_absent h2 hk) (freshEntry_ok_fg1 h1 h2 hi) hd
    · cases hx

end Sys2Proof.Machine
end

