-- ==== Sys2Proof/Tests/Slice0.lean ====
section
/-! SUPPORT. Small tests, one step each, with expected results from spec/95_test_vectors.md or written out from the
encoding tables, and one witness for the hypotheses of each obligation that has some. -/

namespace Sys2Proof.Tests

open Sys2Proof Sys2Proof.Machine

/-! ## Helpers -/

/-- What `f` reads off the next state, if there is one. -/
def seen {α : Type} (o : Host.Outcome State Fault Refusal) (f : State → α) : Option α :=
  match o with
  | .next s => some (f s)
  | .fault _ => none
  | .refused _ => none

/-- `ST, SR, NBITS, FINAL, CUR`: the engine's word part. -/
structure WordPart where
  st : BitVec 2
  sr : BitVec 16
  nbits : BitVec 5
  finalMark : Bool
  cur : Bool
  deriving DecidableEq, Repr

/-- `PHASE, HC, LINE`: the engine's bit part. -/
structure BitPart where
  phase : Bool
  hc : BitVec 7
  line : Bool
  deriving DecidableEq, Repr

/-- `PWR, RUN, SCHED_RUN, CURSOR, TCNT`, and the response. -/
structure PowerPart where
  pwr : Bool
  run : Bool
  schedRun : Bool
  cursor : BitVec 15
  tcnt : BitVec 14
  ret : Ret
  deriving DecidableEq, Repr

/-- A key and its payload, the don't-care bytes left out. -/
structure KeyedPayload where
  cls : Cls
  address : Nat
  payload : List Byte
  deriving DecidableEq, Repr

def wordPart (s : State) : WordPart := ⟨s.st.code, s.sr, s.nbits, s.finalMark, s.cur⟩
def bitPart (s : State) : BitPart := ⟨s.phase, s.hc, s.line⟩
def powerPart (s : State) : PowerPart := ⟨s.pwr, s.run, s.schedRun, s.cursor, s.tcnt, s.ret⟩

/-- Keys and payloads of the registry, the don't-care bytes left out. -/
def registryOf (s : State) : List KeyedPayload := s.reg.map fun e => ⟨e.cls, e.addr.toNat, e.payload⟩

/-- `{SPEED, 3, [0x03, 0x3F, 0xB2]}` (V-SP-1). -/
def speedThree : Entry := { cls := .speed, addr := 3, len := 3, b0 := 0x03, b1 := 0x3F, b2 := 0xB2, b3 := 0 }

/-- `{FG1, 3, [0x03, b]}` (V-FG-1 to V-FG-10). -/
def functionThree (b : Byte) : Entry := { cls := .fg1, addr := 3, len := 2, b0 := 0x03, b1 := b, b2 := 0, b3 := 0 }

/-- The core just after POWER_ON with one function entry in its registry. -/
def onState : State :=
  { State.reset with run := true, schedRun := true, pwr := true, tcnt := 15000, reg := [functionThree 0x80] }

/-- `n` PAD words in the queue. -/
def withPads (n : Nat) (s : State) : State := { s with q := List.replicate n 0x80000000 }

/-! ## WellFormed: an ill-formed term for each check -/

theorem test_ill_formed_terms :
    wellFormed (.pp 0 0xFFFF) = false ∧ wellFormed (.pp 0 0) = false ∧ wellFormed (.reservedOp 4 0 0 0 0) = false ∧
    wellFormed (.pktSpeedShort 0 1 1) = false ∧ wellFormed (.pktSpeedLong 127 1 1) = false ∧
    wellFormed (.pktSpeedLong 0x2800 1 1) = false ∧ wellFormed (.pktFg1Short 0 1) = false ∧
    wellFormed (.pktFg1Long 127 1) = false ∧ wellFormed (.pktFg1Long 0x2800 1) = false ∧
    wellFormed (.addrBytes 0) = false ∧ wellFormed (.addrBytes 0x2800) = false := by decide

theorem test_ill_formed_operands :
    wellFormed (.encSpeed 2 0) = false ∧ wellFormed (.encSpeed 1 128) = false ∧ wellFormed (.fnMask 5) = false ∧
    wellFormed (.encFg1 5 0) = false ∧ wellFormed (.encFg1 4 2) = false ∧
    wellFormed (.checksum [0, 0, 0, 0, 0, 0]) = false ∧ wellFormed (.frame [0, 0, 0, 0, 0, 0]) = false ∧
    wellFormed (.regFind .speed 0) = false ∧ wellFormed (.regFind .fg1 0x2800) = false ∧
    wellFormed (.send [0, 0, 0, 0, 0, 0, 0, 0]) = false := by decide

/-! ## Decoding: words written out bit by bit from R61, R62 and R72 -/

/-- `1 rrrrrrrrrrrrrrr bbbbbbbbbbbbbbbb`. -/
theorem test_decode_pp :
    decodeControl 0b1_100000000000001_1010010111000011 = .pp 0b100000000000001 0b1010010111000011 := by decide

/-- `00 rrrrrrrrrrrrrrrrrrrrr s dddddddd`. -/
theorem test_decode_db :
    decodeControl 0b00_100000000000000000001_1_10000001 = .db 0b100000000000000000001 1 0b10000001 := by decide

/-- `01 rrrrrrrrrrrrrrrrrrrrr s dddddddd`. -/
theorem test_decode_dbf :
    decodeControl 0b01_100000000000000000001_0_00000011 = .dbf 0b100000000000000000001 0 0b00000011 := by decide

/-- PREAMBLE and PAD with reserved bits set (R61). -/
theorem test_decode_named_words :
    decodeControl 0b1_100000000000000_1111111111111111 = .preamble 0b100000000000000 ∧
    decodeControl 0b1_000000000000001_0000000000000000 = .pad 1 := by decide

/-- `oooo rrrr aaaaaaaaaaaaaaaa xxxxxxxx yyyyyyyy` for each operation code of R73. -/
theorem test_decode_commands :
    decodeCommand 0b0000_1001_1000000000000001_10000010_01000011 = .powerQuery 9 0x8001 0x82 0x43 ∧
    decodeCommand 0b0001_1001_1000000000000001_10000010_01000011 = .powerOff 9 0x8001 0x82 0x43 ∧
    decodeCommand 0b0010_1001_1000000000000001_10000010_01000011 = .powerOn 9 0x8001 0x82 0x43 ∧
    decodeCommand 0b0011_1001_1000000000000001_10000010_01000011 = .setSpeed 9 0x8001 0x82 0x43 ∧
    decodeCommand 0b0100_1001_1000000000000001_10000010_01000011 = .setFg1 9 0x8001 0x82 0x43 ∧
    decodeCommand 0b0101_1001_1000000000000001_10000010_01000011 = .reservedOp 5 9 0x8001 0x82 0x43 ∧
    decodeCommand 0b1111_1001_1000000000000001_10000010_01000011 = .reservedOp 15 9 0x8001 0x82 0x43 := by decide

/-- Rows of the table with no decoder are refused, by name where they have bits (R77). -/
theorem test_decode_rejects :
    decode (.wire (wirePacket [0xFF, 0x00, 0xFF])) = .error .wireIsNeverDecoded ∧
    decodeTableWord 44 0 = none ∧ decodeTableWord 0 0 = none ∧
    decodeTableWord 32 0x4000008E = some (.dbf 0 0 0x8E) ∧
    decodeTableWord 40 0x3000030132 = some (.setSpeed 0 3 1 50) := by
  refine ⟨rfl, ?_, ?_, ?_, ?_⟩ <;> decide

/-! ## Encoding -/

/-- Command words of P1 and P2, and the words of V-EN-3, V-EN-5 and V-EN-7. -/
theorem test_encode_words :
    encode (.setSpeed 0 3 1 50) = some (.command 0x3000030132) ∧
    encode (.setFg1 0 3 0 1) = some (.command 0x4000030001) ∧
    encode (.pp 0 0xA5C3) = some (.control 0x8000A5C3) ∧
    encode (.dbf 0 0 0x8E) = some (.control 0x4000008E) ∧
    encode (.db 0 1 0xFF) = some (.control 0x000001FF) := by decide

/-- A marker goes in at any position and the bits above it move up; markers at the default positions (R60). -/
theorem test_insertBit :
    insertBit 2 true (0b1101 : BitVec 4) = 0b11101 ∧ removeBit 2 (0b11101 : BitVec 5) = 0b1101 ∧
    ppControl 0x7FFF 0 = 0xFFFF0000 ∧ dbControl true 0x1FFFFF 0 0 = 0x7FFFFE00 := by decide

/-- A 0/1 list as line bits. -/
def bitList (l : List Nat) : List Bool := l.map (· == 1)

/-- The packet of P1: `1111111111111111 0 00000011 0 00111111 0 10110010 0 10001110 1`. -/
theorem test_encode_pktSpeedShort :
    encode (.pktSpeedShort 3 1 50) = some (.wire (bitList ([1,1,1,1,1,1,1,1,1,1,1,1,1,1,1,1] ++
      [0, 0,0,0,0,0,0,1,1] ++ [0, 0,0,1,1,1,1,1,1] ++ [0, 1,0,1,1,0,0,1,0] ++ [0, 1,0,0,0,1,1,1,0] ++ [1]))) := by
  decide

/-- The third packet of P3: address 1000, reverse, speed 5. -/
theorem test_encode_pktSpeedLong :
    encode (.pktSpeedLong 1000 0 5) = some (.wire (bitList ([1,1,1,1,1,1,1,1,1,1,1,1,1,1,1,1] ++
      [0, 1,1,0,0,0,0,1,1] ++ [0, 1,1,1,0,1,0,0,0] ++ [0, 0,0,1,1,1,1,1,1] ++ [0, 0,0,0,0,0,1,0,1] ++
      [0, 0,0,0,1,0,0,0,1] ++ [1]))) := by decide

/-- The packet of P2: f0 alone on address 3. -/
theorem test_encode_pktFg1Short :
    encode (.pktFg1Short 3 0b10000) = some (.wire (bitList ([1,1,1,1,1,1,1,1,1,1,1,1,1,1,1,1] ++
      [0, 0,0,0,0,0,0,1,1] ++ [0, 1,0,0,1,0,0,0,0] ++ [0, 1,0,0,1,0,0,1,1] ++ [1]))) := by decide

/-- The entry of V-FG-8: f4 alone on 0x27FF, bytes 0xE7, 0xFF, 0x88, checksum 0x90. -/
theorem test_encode_pktFg1Long :
    encode (.pktFg1Long 0x27FF 0b01000) = some (.wire (bitList ([1,1,1,1,1,1,1,1,1,1,1,1,1,1,1,1] ++
      [0, 1,1,1,0,0,1,1,1] ++ [0, 1,1,1,1,1,1,1,1] ++ [0, 1,0,0,0,1,0,0,0] ++ [0, 1,0,0,1,0,0,0,0] ++ [1]))) := by
  decide

/-- The packet of P5. -/
theorem test_encode_pktIdle :
    encode .pktIdle = some (.wire (bitList ([1,1,1,1,1,1,1,1,1,1,1,1,1,1,1,1] ++
      [0, 1,1,1,1,1,1,1,1] ++ [0, 0,0,0,0,0,0,0,0] ++ [0, 1,1,1,1,1,1,1,1] ++ [1]))) := by decide

/-! ## The engine -/

/-- V-EN-18 and V-EN-19. -/
theorem test_loadWord :
    seen (exec (.loadWord 0x4000008E) State.reset) wordPart = some ⟨2, 0x4700, 9, true, false⟩ ∧
    seen (exec (.loadWord 0x8000FFFF) State.reset) wordPart = some ⟨1, 0xFFFF, 16, false, false⟩ := by decide

/-- V-EN-20. -/
theorem test_shiftOut :
    seen (exec .shiftOut { State.reset with sr := 0x0180, nbits := 9 }) wordPart = some ⟨0, 0x0300, 8, false, false⟩ := by
  decide

/-- V-EN-13: the next bit of a word begins. -/
theorem test_engineClock_next_bit :
    seen (exec .engineClock { State.reset with
      cur := true, phase := true, hc := 1, line := false, nbits := 3, sr := 0xA000, run := true })
      (fun s => (s.cur, s.sr, s.nbits, bitPart s)) = some (true, 0x4000, 2, ⟨false, 58, true⟩) := by decide

/-- V-EN-14 and V-EN-15. -/
theorem test_engineClock_half_cycles :
    seen (exec .engineClock { State.reset with hc := 1, line := true, run := true }) bitPart = some ⟨true, 100, false⟩ ∧
    seen (exec .engineClock { State.reset with hc := 37, run := true }) bitPart = some ⟨false, 36, false⟩ := by decide

/-- V-EN-17: the end bit takes precedence over the queue. -/
theorem test_nextBit_end_bit :
    seen (exec .nextBit { State.reset with st := .emitStartAndByte, finalMark := true, q := [0x8000FFFF] })
      (fun s => (wordPart s, s.q)) = some (⟨3, 0, 0, false, true⟩, [0x8000FFFF]) := by decide

/-- V-EN-10: with an empty queue a `0` bit begins. -/
theorem test_nextBit_underrun :
    seen (exec .nextBit { State.reset with st := .emitEndBit, cur := true }) wordPart = some ⟨0, 0, 0, false, false⟩ := by
  decide

/-- V-EN-21, last push. -/
theorem test_qPush_full :
    seen (exec (.qPush 8) { State.reset with q := [0, 1, 2, 3, 4, 5, 6, 7] }) (fun s => (s.q, s.qovf)) =
      some ([0, 1, 2, 3, 4, 5, 6, 7], true) := by decide

/-- V-EN-22: a truncated packet. -/
theorem test_enqueue_truncates :
    seen (exec (.enqueue [0x8000FFFF, 1, 2, 3, 4, 5, 0x40000006]) (withPads 3 State.reset)) (fun s => (s.q, s.qovf)) =
      some ([0x80000000, 0x80000000, 0x80000000, 0x8000FFFF, 1, 2, 3, 4], true) := by decide

/-- V-EN-24: STOP freezes; V-EN-16: a stopped engine ignores the clock. -/
theorem test_stop_then_clock :
    seen (exec .stop onState) (fun s => (s.run, s.schedRun, s.tcnt)) = some (false, true, 15000) ∧
    seen (exec .engineClock { State.reset with hc := 37 }) bitPart = some ⟨false, 37, false⟩ := by decide

/-- V-EN-23 begins so. -/
theorem test_start : seen (exec .start State.reset) (fun s => (s.run, s.pwr, s.hc)) = some (true, false, 0) := by decide

/-- P1 at t = 15001, 16857 and 21249: the fetch of PREAMBLE, of a data byte and of the final byte. -/
theorem test_control_words :
    seen (exec (.preamble 0) State.reset) wordPart = some ⟨1, 0xFFFE, 15, false, true⟩ ∧
    seen (exec (.db 0 0 0x03) State.reset) wordPart = some ⟨2, 0x0300, 8, false, false⟩ ∧
    seen (exec (.dbf 0 0 0x8E) State.reset) wordPart = some ⟨2, 0x8E00, 8, true, false⟩ := by decide

/-- V-EN-2, V-EN-3 and V-EN-7: the first bit of PAD, of 0xA5C3 and of a data word with bit 8 set. -/
theorem test_control_words_verbatim :
    seen (exec (.pad 0) State.reset) wordPart = some ⟨1, 0, 15, false, false⟩ ∧
    seen (exec (.pp 0 0xA5C3) State.reset) wordPart = some ⟨1, 0x4B86, 15, false, true⟩ ∧
    seen (exec (.db 0 1 0xFF) State.reset) wordPart = some ⟨2, 0xFF00, 8, false, true⟩ := by decide

/-- Line bits of V-EN-3, V-EN-4 and V-EN-5. -/
theorem test_line_bits :
    lineBits [0x8000A5C3] = bitList [1,0,1,0,0,1,0,1,1,1,0,0,0,0,1,1] ∧
    lineBits [0x00000003] = bitList [0, 0,0,0,0,0,0,1,1] ∧
    lineBits [0x4000008E] = bitList [0, 1,0,0,0,1,1,1,0, 1] ∧
    lineClocks (lineBits [0x4000008E]) = 1580 ∧ lineClocks (lineBits [0x00000003]) = 1632 := by decide

/-! ## The encoder -/

/-- V-EC-14. -/
theorem test_validAddr :
    [0, 1, 127, 128, 0x27FF, 0x2800, 0xFFFF].map (fun a => seen (exec (.validAddr a) State.reset) (·.ret)) =
      [false, true, true, true, true, false, false].map (fun b => some (.flag b)) := by decide

/-- V-EC-15. -/
theorem test_validSpeed :
    [0, 127, 128, 255].map (fun v => seen (exec (.validSpeed v) State.reset) (·.ret)) =
      [true, true, false, false].map (fun b => some (.flag b)) := by decide

/-- V-EC-16. -/
theorem test_validDir :
    [0, 1, 2, 255].map (fun d => seen (exec (.validDir d) State.reset) (·.ret)) =
      [true, true, false, false].map (fun b => some (.flag b)) := by decide

/-- V-EC-17. -/
theorem test_validFn :
    [0, 4, 5].map (fun i => seen (exec (.validFn i) State.reset) (·.ret)) =
      [true, true, false].map (fun b => some (.flag b)) := by decide

/-- V-EC-17. -/
theorem test_validState :
    [0, 1, 2].map (fun x => seen (exec (.validState x) State.reset) (·.ret)) =
      [true, true, false].map (fun b => some (.flag b)) := by decide

/-- V-EC-1 and V-EC-2. -/
theorem test_addrBytes :
    [1, 3, 127, 128, 256, 1000, 0x27FF].map (fun a => seen (exec (.addrBytes a) State.reset) (·.ret)) =
      [[0x01], [0x03], [0x7F], [0xC0, 0x80], [0xC1, 0x00], [0xC3, 0xE8], [0xE7, 0xFF]].map
        (fun b => some (.bytes b)) := by decide

/-- V-EC-3. -/
theorem test_encSpeed :
    [(1, 0), (0, 0), (1, 127), (0, 127), (1, 50), (0, 10), (1, 1)].map
        (fun x => seen (exec (.encSpeed x.1 x.2) State.reset) (·.ret)) =
      [0x80, 0x00, 0xFF, 0x7F, 0xB2, 0x0A, 0x81].map (fun b => some (.bytes [0x3F, b])) := by decide

/-- V-EC-4. -/
theorem test_fnMask :
    [0, 1, 2, 3, 4].map (fun i => seen (exec (.fnMask i) State.reset) (·.ret)) =
      [0x10, 0x01, 0x02, 0x04, 0x08].map (fun b => some (.byte b)) := by decide

/-- V-EC-5 and V-EC-6. -/
theorem test_encFg1 :
    [(0, 1), (1, 1), (2, 1), (3, 1), (4, 1), (0, 0), (4, 0)].map
        (fun x => seen (exec (.encFg1 x.1 x.2) State.reset) (·.ret)) =
      [0x90, 0x81, 0x82, 0x84, 0x88, 0x80, 0x80].map (fun b => some (.bytes [b])) := by decide

/-- V-EC-7. -/
theorem test_checksum :
    [[0x03, 0x3F, 0xB2], [0x03, 0x90], [0xFF, 0x00], [0xE7, 0xFF, 0x3F, 0xFF], [0xC0, 0x80, 0x3F, 0x00], [0x5A], []].map
        (fun p => seen (exec (.checksum p) State.reset) (·.ret)) =
      [0x8E, 0x93, 0xFF, 0xD8, 0x7F, 0x5A, 0x00].map (fun b => some (.byte b)) := by decide

/-- V-EC-9 and V-EC-12. -/
theorem test_frame :
    seen (exec (.frame [0x03, 0x3F, 0xB2]) State.reset) (·.ret) =
      some (.words [0x8000FFFF, 0x00000003, 0x0000003F, 0x000000B2, 0x4000008E]) ∧
    seen (exec (.frame [1, 2, 3, 4, 5]) State.reset) (·.ret) =
      some (.words [0x8000FFFF, 1, 2, 3, 4, 5, 0x40000001]) := by decide

/-! ## The registry -/

/-- V-SP-1 and V-SP-3: a fresh entry. -/
theorem test_setSpeed_appends :
    seen (exec (decodeCommand 0x3000030132) State.reset) (fun s => (registryOf s, s.ret)) =
      some ([⟨.speed, 3, [0x03, 0x3F, 0xB2]⟩], .resp 2) ∧
    seen (exec (decodeCommand 0x3027FF017F) State.reset) (fun s => (registryOf s, s.ret)) =
      some ([⟨.speed, 10239, [0xE7, 0xFF, 0x3F, 0xFF]⟩], .resp 2) := by decide

/-- V-SP-2 (a patch in place) and V-SP-6 to V-SP-9 (invalid operands). -/
theorem test_setSpeed_patches_and_rejects :
    seen (exec (decodeCommand 0x300003000A) { State.reset with reg := [speedThree] }) registryOf =
      some [⟨.speed, 3, [0x03, 0x3F, 0x0A]⟩] ∧
    [0x3000000101, 0x3028000101, 0x3000030201, 0x3000030180].map
        (fun w => seen (exec (decodeCommand w) onState) (fun s => (s.reg, s.ret))) =
      List.replicate 4 (some ([functionThree 0x80], .resp 1)) := by decide

/-- V-FG-9 (two keys, one address) and V-FG-7 (a fresh entry with state 0). -/
theorem test_setFg1_appends :
    seen (exec (decodeCommand 0x4000030001) { State.reset with reg := [speedThree] }) registryOf =
      some [⟨.speed, 3, [0x03, 0x3F, 0xB2]⟩, ⟨.fg1, 3, [0x03, 0x90]⟩] ∧
    seen (exec (decodeCommand 0x4000030100) State.reset) registryOf = some [⟨.fg1, 3, [0x03, 0x80]⟩] := by decide

/-- V-FG-10 (every bit cleared in turn) and V-FG-11 to V-FG-13 (invalid operands). -/
theorem test_setFg1_patches_and_rejects :
    [(0, 0x9F, 0x8F), (1, 0x8F, 0x8E), (2, 0x8E, 0x8C), (3, 0x8C, 0x88), (4, 0x88, 0x80)].all (fun x =>
      seen (exec (.setFg1 0 3 x.1 0) { State.reset with reg := [functionThree x.2.1] }) (·.reg) =
        some [functionThree x.2.2]) = true ∧
    [0x4000030501, 0x4000030002, 0x4000000000].map
        (fun w => seen (exec (decodeCommand w) onState) (fun s => (s.reg, s.ret))) =
      List.replicate 3 (some ([functionThree 0x80], .resp 1)) := by decide

/-- A key is the pair of class and address (R140). -/
theorem test_regFind :
    [(Cls.fg1, 3), (.speed, 3), (.fg1, 4), (.speed, 0x4003)].map (fun x =>
        seen (exec (.regFind x.1 x.2) { State.reset with reg := [functionThree 0x80, speedThree] }) (·.ret)) =
      [some 0, some 1, none, none].map (fun k => some (.index k)) := by decide

/-! ## The scheduler -/

/-- V-SC-1 and the drop of V-EX-4. -/
theorem test_tick_idle :
    seen (exec .tick State.reset) (fun s => (s.q, s.cursor)) =
      some ([0x8000FFFF, 0x000000FF, 0x00000000, 0x400000FF], 0) ∧
    seen (exec .tick (withPads 5 State.reset)) (fun s => (s.q.length, s.anom, s.qovf)) = some (5, true, false) := by
  decide

/-- The first tick of V-SC-3 (CURSOR 2), and its second (CURSOR 3 wraps), on two of its entries. -/
theorem test_tick_cursor :
    seen (exec .tick { State.reset with reg := [speedThree, functionThree 0x90], cursor := 1 }) (fun s => (s.q, s.cursor)) =
      some ([0x8000FFFF, 0x03, 0x90, 0x40000093], 2) ∧
    seen (exec .tick { State.reset with reg := [speedThree, functionThree 0x90], cursor := 2 }) (fun s => (s.q, s.cursor)) =
      some ([0x8000FFFF, 0x03, 0x3F, 0xB2, 0x4000008E], 1) := by decide

/-- V-EX-6 and V-EX-7. -/
theorem test_send :
    seen (exec (.send [1, 2, 3, 4, 5]) State.reset) (fun s => (s.q, s.errFatal)) =
      some ([0x8000FFFF, 1, 2, 3, 4, 5, 0x40000001], false) ∧
    seen (exec (.send [1, 2, 3, 4, 5, 6]) State.reset) (fun s => (s.q, s.errFatal, s.anom)) =
      some ([], true, false) := by decide

/-- V-SC-5, V-SC-6 and V-SC-7. -/
theorem test_timerClock :
    seen (exec .timerClock { onState with tcnt := 2 }) (fun s => (s.tcnt, s.q)) = some (1, []) ∧
    seen (exec .timerClock { onState with tcnt := 1 }) (fun s => (s.tcnt, s.q)) =
      some (15000, [0x8000FFFF, 0x03, 0x80, 0x40000083]) ∧
    seen (exec .timerClock { State.reset with tcnt := 7999 }) (fun s => (s.tcnt, s.q)) = some (7999, []) := by decide

/-- V-PW-3. -/
theorem test_clockStep :
    seen (exec .clockStep onState) (fun s => (wordPart s, bitPart s, s.tcnt)) =
      some (⟨0, 0, 0, false, false⟩, ⟨false, 100, true⟩, 14999) := by decide

/-- A packet queued by the tick of a clock step is fetched in the next clock step at the earliest (R149; P1 at t = 15000). -/
theorem test_clockStep_engine_first :
    seen (exec .clockStep { onState with hc := 2, phase := true, tcnt := 1 }) (fun s => (s.hc, s.q.length, s.nbits)) =
      some (1, 4, 0) := by decide

/-- P1's packet: PKT_SPEED_SHORT enqueues it whole. -/
theorem test_pktSpeedShort :
    seen (exec (.pktSpeedShort 3 1 50) State.reset) (·.q) =
      some [0x8000FFFF, 0x03, 0x3F, 0xB2, 0x4000008E] := by decide

/-- P3's tick 3, P2's first tick, V-FG-8's bytes, P5's idle packet. -/
theorem test_pkt_layouts :
    seen (exec (.pktSpeedLong 1000 0 5) State.reset) (·.q) = some [0x8000FFFF, 0xC3, 0xE8, 0x3F, 0x05, 0x40000011] ∧
    seen (exec (.pktFg1Short 3 0b10000) State.reset) (·.q) = some [0x8000FFFF, 0x03, 0x90, 0x40000093] ∧
    seen (exec (.pktFg1Long 0x27FF 0b01000) State.reset) (·.q) = some [0x8000FFFF, 0xE7, 0xFF, 0x88, 0x40000090] ∧
    seen (exec .pktIdle State.reset) (·.q) = some [0x8000FFFF, 0xFF, 0x00, 0x400000FF] := by decide

/-! ## Power and the command port -/

/-- V-PW-2 and V-PW-4. -/
theorem test_powerOn :
    seen (exec (.powerOn 0 0 0 0) State.reset) powerPart = some ⟨true, true, true, 0, 15000, .resp 3⟩ ∧
    seen (exec (.powerOn 0 0 0 0) { onState with cursor := 1, tcnt := 7000 }) (fun s => (s.cursor, s.tcnt)) =
      some (0, 15000) := by decide

/-- V-PW-5. -/
theorem test_powerOff :
    seen (exec (.powerOff 0 0 0 0) (withPads 2 { onState with tcnt := 7000, hc := 9 }))
      (fun s => (powerPart s, s.hc, s.q.length)) =
      some (⟨false, false, false, 0, 7000, .resp 2⟩, 9, 2) := by decide

/-- V-PW-1 and V-PW-8. -/
theorem test_powerQuery :
    seen (exec (.powerQuery 0 0 0 0) State.reset) (·.ret) = some (.resp 2) ∧
    exec (.powerQuery 0 0 0 0) onState = .next { onState with ret := .resp 3 } := ⟨by decide, rfl⟩

/-- V-EX-1 and V-EX-2: a reserved operation code answers `ok` = 0 and the power state. -/
theorem test_reservedOp :
    seen (exec (decodeCommand 0x5000000000) State.reset) (·.ret) = some (.resp 0) ∧
    seen (exec (decodeCommand 0xF123456789) onState) (fun s => (s.ret, s.reg)) = some (.resp 1, onState.reg) := by decide

/-- V-EX-3: the reserved bits are ignored; V-PW-7: registry commands work while OFF. -/
theorem test_execCmd :
    seen (exec (.execCmd 0x3F00030132) State.reset) (fun s => (registryOf s, s.ret)) =
      some ([⟨.speed, 3, [0x03, 0x3F, 0xB2]⟩], .resp 2) ∧
    seen (exec (.execCmd 0x2000000000) State.reset) (fun s => (s.pwr, s.ret)) = some (true, .resp 3) := by decide

/-! ## Steps -/

/-- From reset the first step is a clock period of a stopped core (R201); the pins are LINE_OE alone (R36, R181). -/
theorem test_step_reset :
    step State.reset = .next State.reset ∧
    State.reset.pins = { line := false, lineOe := true, boostEn := false, anom := false, qovf := false, errFatal := false } :=
  ⟨rfl, by decide⟩

/-- A control word placed where the next step fetches is fetched: P1 at t = 15001. -/
theorem test_withFetchWord_control :
    seen (step (State.reset.withFetchWord 32 0x8000FFFF)) (fun s => (wordPart s, bitPart s, s.q, s.port)) =
      some (⟨1, 0xFFFE, 15, false, true⟩, ⟨false, 58, true⟩, [], []) := by decide

/-- A command word placed on the port is executed (V-PW-2). -/
theorem test_withFetchWord_command :
    seen (step (State.reset.withFetchWord 40 0x2000000000)) (fun s => (s.pwr, s.tcnt, s.port)) = some (true, 15000, []) := by
  decide

/-- Reset clears the sticky flags and the registry, whatever the state (R200). -/
theorem test_step_reset_action :
    seen (step { onState with qovf := true, anom := true, errFatal := true, port := [.rst, .clock] })
      (fun s => (s.qovf || s.anom || s.errFatal || s.pwr, s.reg, s.port)) = some (false, [], [.clock]) := by decide

/-! ## Witnesses: for each obligation with hypotheses, states and operands that meet them, at the edges of each clause -/

theorem functionThree_ok : (functionThree 0x80).Ok := ⟨by decide, by decide, 0, by decide⟩

/-- A state that meets the invariant with the power on and a key in the registry. -/
theorem onState_inv : onState.Inv where
  engine :=
    { fresh := fun _ => ⟨rfl, rfl, rfl, rfl, rfl⟩
      level := fun h => absurd rfl h
      count := by decide
      bits := by decide
      dataBits := fun h => by simp [onState, State.reset] at h
      noBits := fun _ => rfl
      mark := fun h => by simp [onState, State.reset] at h }
  queue := by decide
  registry :=
    { keys := by decide
      entries := fun e h => by
        have : e = functionThree 0x80 := by simpa [onState] using h
        rw [this]; exact functionThree_ok
      depth := by decide }
  cursor := by decide
  power := ⟨rfl, rfl⟩
  timer := fun _ => by decide

theorem onState_paced : onState.Paced := .inl (by decide)

theorem test_witness_DecodeOfEncodeIsIdentity :
    (wellFormed (.pp 0x7FFF 1) = true ∧ ∃ w, encode (.pp 0x7FFF 1) = some (.control w)) ∧
    (wellFormed (.reservedOp 5 0 0 0 0) = true ∧ ∃ w, encode (.reservedOp 5 0 0 0 0) = some (.command w)) :=
  ⟨⟨by decide, _, rfl⟩, ⟨by decide, _, rfl⟩⟩

theorem test_witness_ReservedBitsAreIgnored :
    (∃ w v : Word, w ≠ v ∧ w.getLsbD 31 = true ∧ v.getLsbD 31 = true ∧ w.extractLsb' 0 16 = v.extractLsb' 0 16) ∧
    (∃ w v : Word, w ≠ v ∧ w.getLsbD 31 = false ∧ v.getLsbD 31 = false ∧ w.getLsbD 30 = v.getLsbD 30 ∧
      w.extractLsb' 0 9 = v.extractLsb' 0 9) ∧
    (∃ w v : CmdWord, w ≠ v ∧ w.extractLsb' 36 4 = v.extractLsb' 36 4 ∧ w.extractLsb' 0 32 = v.extractLsb' 0 32) :=
  ⟨⟨0x8000FFFF, 0xC000FFFF, by decide⟩, ⟨0x00000003, 0x3FFFFE03, by decide⟩, ⟨0x3000030132, 0x3F00030132, by decide⟩⟩

/-- The edges are the empty and the barely fitting queue, for the shortest and the longest layout. -/
theorem test_witness_WireLayoutsAreWhatIsEnqueued :
    (∃ bits, encode .pktIdle = some (.wire bits)) ∧ (withPads 4 State.reset).q.length + 4 ≤ 8 ∧
    8 < (withPads 5 State.reset).q.length + 4 ∧
    (∃ bits, encode (.pktSpeedLong 128 0 0) = some (.wire bits)) ∧ (withPads 2 State.reset).q.length + 6 ≤ 8 ∧
    8 < (withPads 3 State.reset).q.length + 6 :=
  ⟨⟨_, rfl⟩, by decide, by decide, ⟨_, rfl⟩, by decide, by decide⟩

theorem test_witness_StepExecutesTheCommand : ({ onState with port := [.cmd 0] } : State).port = .cmd 0 :: [] := rfl

/-- Both forms of the boundary and both forms of the port. -/
theorem test_witness_ClockStepFetchesTheControlWord :
    (∃ s : State, s.port = [] ∧ s.run = true ∧ s.AtWordBoundary ∧ s.hc = 0 ∧ s.q = [0x8000FFFF]) ∧
    (∃ s : State, s.port.head? = some .clock ∧ s.run = true ∧ s.AtWordBoundary ∧ s.hc = 1 ∧ s.q = [0x00000003, 0]) :=
  ⟨⟨{ onState with q := [0x8000FFFF] }, rfl, rfl, ⟨.inl rfl, rfl, by decide⟩, rfl, rfl⟩,
   ⟨{ onState with q := [0x00000003, 0], port := [.clock, .rst], hc := 1, phase := true }, rfl, rfl,
    ⟨.inr ⟨rfl, rfl⟩, rfl, by decide⟩, rfl, rfl⟩⟩

theorem test_witness_StepTakesTheOtherActions :
    (onState.port = []) ∧ (({ onState with port := [.clock] } : State).port = .clock :: []) ∧
    (({ onState with port := [.push 1] } : State).port = .push 1 :: []) ∧
    (({ onState with port := [.enqueue [1, 2]] } : State).port = .enqueue [1, 2] :: []) ∧
    (({ onState with port := [.rst] } : State).port = .rst :: []) := ⟨rfl, rfl, rfl, rfl, rfl⟩

theorem test_witness_PushAppendsOrLatchesOverflow :
    (withPads 7 onState).q.length < 8 ∧ 8 ≤ (withPads 8 onState).q.length := by decide

theorem test_witness_EngineClockCases :
    (State.reset.run = false) ∧ (onState.run = true ∧ 2 ≤ ({ onState with hc := 2 } : State).hc.toNat) ∧
    (({ onState with hc := 1 } : State).hc = 1 ∧ ({ onState with hc := 1 } : State).phase = false) ∧
    onState.hc = 0 ∧ (({ onState with hc := 1, phase := true } : State).phase = true) := by decide

theorem test_witness_NextBitCases :
    (({ onState with nbits := 1 } : State).nbits ≠ 0) ∧
    (∃ s : State, s.nbits = 0 ∧ s.st = .emitStartAndByte ∧ s.finalMark = true) ∧
    (∃ s : State, s.nbits = 0 ∧ ¬ (s.st = .emitStartAndByte ∧ s.finalMark = true) ∧ s.q = [0x8000FFFF]) ∧
    (∃ s : State, s.nbits = 0 ∧ ¬ (s.st = .emitStartAndByte ∧ s.finalMark = true) ∧ s.q = []) :=
  ⟨by decide, ⟨{ onState with st := .emitStartAndByte, finalMark := true }, rfl, rfl, rfl⟩,
   ⟨{ onState with st := .emitStartAndByte, q := [0x8000FFFF] }, rfl, by decide, rfl⟩,
   ⟨onState, rfl, by decide, rfl⟩⟩

theorem test_witness_ShiftOutStartsTheTopBit :
    ({ onState with nbits := 1 } : State).nbits ≠ 0 ∧ onState.nbits = 0 := by decide

theorem test_witness_LoadWordByFormat :
    (0x80000000 : Word).getLsbD 31 = true ∧ (0x7FFFFFFF : Word).getLsbD 31 = false := by decide

theorem test_witness_LineCarriesExactlyWhatIsOwed :
    ({ onState with nbits := 16, sr := 0xA5C3, q := [0x4000008E] } : State).nbits.toNat ≤ 16 := by decide

/-- A `1` bit and a `0` bit, and the last clock of a half-cycle. -/
theorem test_witness_OneBitIsTwoEqualHalfCycles :
    (∃ s : State, s.run = true ∧ s.phase = false ∧ (58 : Nat) = (if s.cur then 58 else 100) ∧ s.hc.toNat = 58 ∧ 57 < 58) ∧
    (∃ s : State, s.run = true ∧ s.phase = false ∧ (100 : Nat) = (if s.cur then 58 else 100) ∧ s.hc.toNat = 100 ∧
      99 < 100) :=
  ⟨⟨{ onState with cur := true, hc := 58 }, by decide⟩, ⟨{ onState with cur := false, hc := 100 }, by decide⟩⟩

theorem test_witness_RunningLineInvertsWithinAHundredClocks : onState.Inv ∧ onState.run = true ∧ onState.port = [] :=
  ⟨onState_inv, rfl, rfl⟩

theorem test_witness_UnderrunBeginsAZeroBit :
    (onState.run = true ∧ onState.AtWordBoundary ∧ onState.q = []) ∧
    (∃ s : State, s.run = true ∧ s.AtWordBoundary ∧ s.q = [] ∧ s.hc = 1 ∧ s.st = .emitEndBit) :=
  ⟨⟨rfl, ⟨.inl rfl, rfl, by decide⟩, rfl⟩,
   ⟨{ onState with hc := 1, phase := true, st := .emitEndBit }, rfl, ⟨.inr ⟨rfl, rfl⟩, rfl, by decide⟩, rfl, rfl, rfl⟩⟩

theorem test_witness_ProducersLeaveTheEngineAlone :
    producer .stop = true ∧ ∃ t, exec .stop onState = .next t := ⟨rfl, _, rfl⟩

theorem test_witness_StepKeepsTheQueueInOrder :
    (onState.port.head? ≠ some .rst) ∧ ∃ t, step { onState with q := [1, 2] } = .next t := ⟨by decide, _, rfl⟩

/-- A tick in mid-bit and a raw push; a bit begun with nothing owed; one begun inside a word; one begun with a fetch. -/
theorem test_witness_WordsGoOutOnceAndInOrder :
    (onState.Inv ∧ onState.port.head? ≠ some .rst ∧ ∃ t, step onState = .next t) ∧
    (¬ ({ onState with hc := 2, tcnt := 1 } : State).BeginsBit ∧ ¬ ({ onState with port := [.push 1] } : State).BeginsBit) ∧
    (onState.BeginsBit ∧ onState.residue = []) ∧
    (∃ s : State, s.BeginsBit ∧ s.residue = [true] ∧ ¬ s.AtWordBoundary) ∧
    (∃ s : State, s.BeginsBit ∧ s.residue = bitList [0, 1,0,0,0,1,1,1,0, 1] ∧ s.AtWordBoundary) := by
  refine ⟨⟨onState_inv, by decide, _, rfl⟩, ⟨fun h => absurd h.2.2 (by decide), fun h => absurd h.1 (by decide)⟩,
    ⟨⟨.inl rfl, rfl, .inl rfl⟩, by decide⟩,
    ⟨{ onState with hc := 1, phase := true, nbits := 1, sr := 0x8000, st := .emitPreamblePadding },
      ⟨.inl rfl, rfl, .inr ⟨rfl, rfl⟩⟩, by decide, fun h => absurd h.2.1 (by decide)⟩,
    ⟨{ onState with q := [0x4000008E] }, ⟨.inl rfl, rfl, .inl rfl⟩, by decide, ⟨.inl rfl, rfl, by decide⟩⟩⟩

theorem test_witness_AddressBytesByRange :
    (1 ≤ (1 : Addr).toNat ∧ (127 : Addr).toNat ≤ 127) ∧ (128 ≤ (128 : Addr).toNat ∧ (10239 : Addr).toNat ≤ 10239) ∧
    exec (.addrBytes 127) onState = exec (.addrBytes 127) onState := ⟨by decide, by decide, rfl⟩

theorem test_witness_DirectionCodesAndSpeedBytes : (127 : Byte).toNat ≤ 127 ∧ (0 : Byte).toNat ≤ 127 := by decide

theorem test_witness_FunctionMaskIsTheTable :
    (4 : Byte).toNat ≤ 4 ∧ exec (.fnMask 4) onState = exec (.fnMask 4) onState := ⟨by decide, rfl⟩

theorem test_witness_FunctionMaskCompletesOutsideItsTable : 4 < (5 : Byte).toNat ∧ 4 < (255 : Byte).toNat := by decide

theorem test_witness_FunctionGroupInstructionByte : (4 : Byte).toNat ≤ 4 := by decide

theorem test_witness_ChecksumIsTheXorOfAllBytes : [(1 : Byte), 2, 3].Perm [3, 1, 2] := by decide

/-- Both answers: the second of two entries, and none. -/
theorem test_witness_RegFindAnswersTheKeysIndex :
    seen (exec (.regFind .speed 3) { onState with reg := [functionThree 0x80, speedThree] }) (·.ret) =
      some (.index (some 1)) ∧
    seen (exec (.regFind .speed 3) onState) (·.ret) = some (.index none) := by decide

theorem test_witness_InvalidOperandsChangeNothing :
    (0 : Addr).toNat = 0 ∧ 10239 < (10240 : Addr).toNat ∧ 1 < (2 : Byte).toNat ∧ 127 < (128 : Byte).toNat ∧
    4 < (5 : Byte).toNat := by decide

/-- The edges of the operands: address 1 to 10239, direction 0 and 1, speed 0 and 127. -/
theorem test_witness_SetSpeedPatchesTheLastByte :
    ∃ (s : State) (e : Entry), s.reg[1]? = some e ∧ e.cls = .speed ∧ e.addr.toNat = (3 : Addr).toNat ∧
      1 ≤ (3 : Addr).toNat ∧ (3 : Addr).toNat ≤ 10239 ∧ (1 : Byte).toNat ≤ 1 ∧ (127 : Byte).toNat ≤ 127 ∧
      1 ≤ e.len.toNat ∧ e.len.toNat ≤ 4 ∧
      ∀ j f, j < 1 → s.reg[j]? = some f → ¬ (f.cls = .speed ∧ f.addr.toNat = (3 : Addr).toNat) := by
  refine ⟨{ onState with reg := [functionThree 0x80, speedThree] }, speedThree, rfl, rfl, by decide, by decide,
    by decide, by decide, by decide, by decide, by decide, fun j f hj hf h => ?_⟩
  obtain rfl : j = 0 := by omega
  obtain rfl : functionThree 0x80 = f := by simpa using hf
  exact absurd h.1 (by decide)

theorem test_witness_SetSpeedAppendsAFreshEntry :
    onState.reg.length < 20478 ∧ (∀ f ∈ onState.reg, ¬ (f.cls = .speed ∧ f.addr.toNat = (10239 : Addr).toNat)) ∧
    1 ≤ (1 : Addr).toNat ∧ (10239 : Addr).toNat ≤ 10239 ∧ (1 : Byte).toNat ≤ 1 ∧ (127 : Byte).toNat ≤ 127 := by decide

theorem test_witness_SetFg1PatchesOneBit :
    ∃ (s : State) (e : Entry), s.reg[1]? = some e ∧ e.cls = .fg1 ∧ e.addr.toNat = (3 : Addr).toNat ∧
      1 ≤ (3 : Addr).toNat ∧ (3 : Addr).toNat ≤ 10239 ∧ (4 : Byte).toNat ≤ 4 ∧ (1 : Byte).toNat ≤ 1 ∧
      1 ≤ e.len.toNat ∧ e.len.toNat ≤ 4 ∧ e.payload.getLast? = some 0x80 ∧
      ∀ j f, j < 1 → s.reg[j]? = some f → ¬ (f.cls = .fg1 ∧ f.addr.toNat = (3 : Addr).toNat) := by
  refine ⟨{ onState with reg := [speedThree, functionThree 0x80] }, functionThree 0x80, rfl, rfl, by decide, by decide,
    by decide, by decide, by decide, by decide, by decide, by decide, fun j f hj hf h => ?_⟩
  obtain rfl : j = 0 := by omega
  obtain rfl : speedThree = f := by simpa using hf
  exact absurd h.1 (by decide)

theorem test_witness_SetFg1AppendsAFreshEntry :
    onState.reg.length < 20478 ∧ (∀ f ∈ onState.reg, ¬ (f.cls = .fg1 ∧ f.addr.toNat = (128 : Addr).toNat)) ∧
    1 ≤ (128 : Addr).toNat ∧ (128 : Addr).toNat ≤ 10239 ∧ (4 : Byte).toNat ≤ 4 ∧ (1 : Byte).toNat ≤ 1 := by decide

/-- V-FG-5's case: the bit is 0 before. -/
theorem test_witness_SetThenClearRestoresAClearBit :
    onState.Inv ∧ (4 : Byte).toNat ≤ 4 ∧ onState.reg[0]? = some (functionThree 0x80) ∧ (functionThree 0x80).cls = .fg1 ∧
    (functionThree 0x80).addr.toNat = (3 : Addr).toNat ∧ (functionThree 0x80).payload.getLast? = some 0x80 ∧
    (0x80 : Byte).getLsbD (if (4 : Byte).toNat = 0 then 4 else (4 : Byte).toNat - 1) = false ∧
    ∃ t, exec (.setFg1 0 3 4 1) onState = .next t :=
  ⟨onState_inv, by decide, rfl, rfl, by decide, by decide, by decide, _, rfl⟩

/-- A registry of REG_DEPTH entries none of which has the key. -/
theorem test_witness_FullRegistryRefusesANewKey :
    ∃ s : State, 20478 ≤ s.reg.length ∧
      (∀ f ∈ s.reg, ¬ (f.cls = .speed ∧ f.addr.toNat = (3 : Addr).toNat)) ∧
      (∀ f ∈ s.reg, ¬ (f.cls = .fg1 ∧ f.addr.toNat = (10239 : Addr).toNat)) := by
  refine ⟨{ State.reset with reg := List.replicate 20478 (functionThree 0x80) }, by rw [List.length_replicate],
    fun f hf => ?_, fun f hf => ?_⟩ <;> rw [List.eq_of_mem_replicate hf] <;> decide

/-- Six bytes; five bytes and two queued words; five bytes and one queued word. -/
theorem test_witness_SendIsAllOrNothing :
    5 < [(1 : Byte), 2, 3, 4, 5, 6].length ∧ [(1 : Byte), 2, 3, 4, 5].length ≤ 5 ∧
    8 < (withPads 2 onState).q.length + [(1 : Byte), 2, 3, 4, 5].length + 2 ∧
    (withPads 1 onState).q.length + [(1 : Byte), 2, 3, 4, 5].length + 2 ≤ 8 := by decide

theorem test_witness_TickOfEmptyRegistrySendsIdle :
    State.reset.reg = [] ∧ (withPads 4 State.reset).q.length ≤ 4 ∧ 4 < (withPads 5 State.reset).q.length := by decide

/-- CURSOR inside the registry and CURSOR at its end. -/
theorem test_witness_TickServesTheCursor :
    (onState.reg.length < 32768 ∧ onState.reg ≠ [] ∧
      0 = (if onState.reg.length ≤ onState.cursor.toNat then 0 else onState.cursor.toNat) ∧
      onState.reg[0]? = some (functionThree 0x80)) ∧
    0 = (if onState.reg.length ≤ ({ onState with cursor := 1 } : State).cursor.toNat then 0
      else ({ onState with cursor := 1 } : State).cursor.toNat) := by decide

theorem test_witness_TicksVisitEveryEntryOnce : onState.reg ≠ [] ∧ onState.reg.length < 32768 := by decide

theorem test_witness_AppendedEntryIsServedInTheSamePass :
    ∃ s : State, s.reg.length < 32768 ∧ s.cursor.toNat ≤ 1 ∧ s.reg[1]? = some speedThree ∧ s.cursor = 1 :=
  ⟨{ onState with cursor := 1, reg := [functionThree 0x80, speedThree] }, by decide⟩

theorem test_witness_TimerClockCasesAndClockOrder :
    State.reset.schedRun = false ∧ onState.schedRun = true ∧ 2 ≤ ({ onState with tcnt := 2 } : State).tcnt.toNat ∧
    ({ onState with tcnt := 1 } : State).tcnt.toNat ≤ 1 := by decide

theorem test_witness_FirstTickAfterAFullPeriod : ∃ t, exec (.powerOn 0 0 0 0) State.reset = .next t := ⟨_, rfl⟩

theorem test_witness_NominalTimerNeverDropsAPacket :
    onState.Inv ∧ onState.Paced ∧ onState.NoRawPush ∧ onState.port.head? ≠ some .rst ∧ ∃ t, step onState = .next t :=
  ⟨onState_inv, onState_paced, trivial, by decide, _, rfl⟩

theorem test_witness_ExecCmdRunsTheDecodedCommand : onState.Inv := onState_inv

theorem test_witness_PowerCycleFreezesTheEngine :
    ∃ t u v, exec (.powerOff 0 0 0 0) onState = .next t ∧ repeatExec .clockStep 3 t = .next u ∧
      exec (.powerOn 0 0 0 0) u = .next v := ⟨_, _, _, rfl, rfl, rfl⟩

theorem test_witness_OnlyPowerCommandsChangeThePowerState :
    powerCommand .clockStep = false ∧ ∃ t, exec .clockStep onState = .next t := ⟨rfl, _, rfl⟩

theorem test_witness_StickyFlagsStaySet :
    ∃ s t : State, s.port.head? ≠ some .rst ∧ s.qovf = true ∧ s.anom = true ∧ s.errFatal = true ∧ step s = .next t :=
  ⟨{ onState with qovf := true, anom := true, errFatal := true }, _, by decide, rfl, rfl, rfl, rfl⟩

theorem test_witness_FatalErrorIsUnreachable :
    onState.Inv ∧ ¬ onState.Failed ∧ ∃ t, step onState = .next t :=
  ⟨onState_inv, fun h => by simp [State.Failed, onState, State.reset] at h, _, rfl⟩

theorem test_witness_StoppedCoreIsUnchangedByTheClock :
    ∃ s : State, s.run = false ∧ s.schedRun = false ∧ s.port = [] ∧ s.reg ≠ [] :=
  ⟨{ State.reset with reg := [speedThree] }, by decide⟩

theorem test_witness_StepKeepsTheInvariant : onState.Inv ∧ ∃ t, step onState = .next t := ⟨onState_inv, _, rfl⟩

theorem test_witness_EveryStepCompletes : onState.Inv := onState_inv

end Sys2Proof.Tests
end

/-! # Proofs: the state (spec/10_state.md)

The reset state, the sticky flags and the invariant of R34. The invariant has one rule for each group of registers an
operation may write; an operation keeps the invariant because its frame lemma says which groups it writes. -/

namespace Sys2Proof.Machine

/-! ## The reset state (R36) -/

/-- Settles O55: every field of the reset state is a literal. -/
theorem resetLeavesTheTableOfValues : Obligations.ResetLeavesTheTableOfValues := by
  unfold Obligations.ResetLeavesTheTableOfValues
  decide

theorem reset_engineOk : State.reset.EngineOk where
  fresh _ := ⟨rfl, rfl, rfl, rfl, rfl⟩
  level h := absurd rfl h
  count := Nat.zero_le _
  bits := Nat.zero_le _
  dataBits _ := Nat.zero_le _
  noBits _ := rfl
  mark h := absurd h Bool.false_ne_true

theorem reset_inv : State.reset.Inv where
  engine := reset_engineOk
  queue := Nat.zero_le _
  registry := reset_regOk
  cursor := Nat.zero_le _
  power := ⟨rfl, rfl⟩
  timer h := absurd h Bool.false_ne_true

/-- Settles O57: each clause of the invariant is about registers that are 0 or empty after reset, and with no bit left and
no word queued the core owes no line bit. -/
theorem invariantHoldsAtReset : Obligations.InvariantHoldsAtReset := by
  have owesNothing : State.reset.residue = [] := by decide
  exact ⟨reset_inv, .inl owesNothing, rfl, rfl, rfl⟩

/-! ## The sticky flags (R20, R26, R27) -/

/-- Every sticky flag that is set in `s` is set in `t`. -/
def FlagsKept (s t : State) : Prop :=
  (s.qovf = true → t.qovf = true) ∧ (s.anom = true → t.anom = true) ∧ (s.errFatal = true → t.errFatal = true)

theorem enqueue_flagsKept (ws : List Word) (s : State) : FlagsKept s (enqueue ws s) := by
  obtain ⟨vs, o, e, ho⟩ := enqueue_frame ws s
  rw [e]
  exact ⟨ho, id, id⟩

/-- The engine's half of a clock step writes no flag, the timer's half clears none. -/
theorem clockStep_flagsKept (s : State) : FlagsKept s (clockStep s) := by
  obtain ⟨_, _, _, _, _, _, _, _, _, hengine, _⟩ := engineClock_frame s
  obtain ⟨_, _, _, _, _, htimer, hanom, hfatal⟩ := timerClock_frame (engineClock s)
  rw [clockStep, htimer, hengine]
  rw [hengine] at hanom hfatal
  exact ⟨id, hanom, hfatal⟩

theorem exec_decodeCommand_flagsKept {w : CmdWord} {s t : State} (h : exec (decodeCommand w) s = .next t) :
    FlagsKept s t := by
  rcases exec_decodeCommand_frame h with rfl | rfl | ⟨g, r, rfl⟩ <;> exact ⟨id, id, id⟩

/-- Settles O53: of the five kinds of step only reset clears a sticky flag. -/
theorem stickyFlagsStaySet : Obligations.StickyFlagsStaySet := by
  intro s t hrst h
  change FlagsKept s t
  rcases step_cases h with ⟨rest, _, rfl⟩ | ⟨w, rest, _, hexec⟩ | ⟨w, rest, _, rfl⟩ | ⟨ws, rest, _, rfl⟩ |
    ⟨rest, hport, _⟩
  · exact clockStep_flagsKept { s with port := rest }
  · exact exec_decodeCommand_flagsKept (s := { s with port := rest }) hexec
  · exact enqueue_flagsKept [w] { s with port := rest }
  · exact enqueue_flagsKept ws { s with port := rest }
  · simp [hport] at hrst

/-! ## The invariant, one rule for each group of registers (R34) -/

section Rules

variable {s t : State}

/-- Clauses (a) to (e) read the engine's own registers only; where `t` is an update of other fields of `s` the premise
holds by definition. -/
theorem State.EngineOk.of_sameEngine (h : s.EngineOk)
    (hsame : SameEngine s t := by exact ⟨rfl, rfl, rfl, rfl, rfl, rfl, rfl, rfl⟩) : t.EngineOk := by
  obtain ⟨hst, hsr, hnbits, hmark, hcur, hphase, hhc, hline⟩ := hsame
  obtain ⟨fresh, level, count, bits, dataBits, noBits, mark⟩ := h
  rw [← hst, ← hnbits] at dataBits noBits
  rw [← hst, ← hmark] at mark
  rw [← hhc, ← hline, ← hphase] at level
  rw [← hhc, ← hline, ← hphase, ← hcur, ← hst, ← hsr] at fresh
  exact ⟨fresh, level, by rwa [hhc, hcur], by rwa [hnbits], dataBits, noBits, mark⟩

/-- No clause reads the sticky flags, the port or the returned value. -/
theorem State.Inv.with_unread (h : s.Inv) {o a e : Bool} {p : List Stimulus} {r : Ret} :
    ({ s with qovf := o, anom := a, errFatal := e, port := p, ret := r } : State).Inv :=
  { h with engine := h.engine.of_sameEngine }

theorem State.Inv.with_queue (h : s.Inv) {q : List Word} (hq : q.length ≤ 8) : ({ s with q := q } : State).Inv :=
  { h with engine := h.engine.of_sameEngine, queue := hq }

/-- A registry in canonical form that has lost no entry keeps CURSOR in range. -/
theorem State.Inv.with_registry (h : s.Inv) {g : List Entry} (hg : RegOk g) (hle : s.reg.length ≤ g.length) :
    ({ s with reg := g } : State).Inv :=
  { h with
    engine := h.engine.of_sameEngine
    registry := hg
    cursor := h.cursor.trans hle }

theorem State.Inv.with_cursor (h : s.Inv) {c : BitVec 15} (hc : c.toNat ≤ s.reg.length) :
    ({ s with cursor := c } : State).Inv :=
  { h with engine := h.engine.of_sameEngine, cursor := hc }

theorem State.Inv.with_timer (h : s.Inv) {n : BitVec 14} (hn : 1 ≤ n.toNat ∧ n.toNat ≤ 15000) :
    ({ s with tcnt := n } : State).Inv :=
  { h with engine := h.engine.of_sameEngine, timer := fun _ => hn }

/-- RUN, SCHED_RUN and PWR are switched together, and the timer is loaded where it is switched on. -/
theorem State.Inv.with_power (h : s.Inv) {b : Bool} {n : BitVec 14}
    (hn : b = true → 1 ≤ n.toNat ∧ n.toNat ≤ 15000) :
    ({ s with run := b, schedRun := b, pwr := b, tcnt := n } : State).Inv :=
  { h with
    engine := h.engine.of_sameEngine
    power := ⟨rfl, rfl⟩
    timer := hn }

end Rules

/-! ## The engine keeps its clauses (R94 to R97) -/

/-- What holds between NEXT_BIT and the half-cycle it starts: clauses (d) and (e). -/
structure WordOk (s : State) : Prop where
  bits : s.nbits.toNat ≤ 16
  dataBits : s.st = .emitStartAndByte → s.nbits.toNat ≤ 8
  noBits : s.st = .awaitWord ∨ s.st = .emitEndBit → s.nbits = 0
  mark : s.finalMark = true → s.st = .emitStartAndByte

theorem State.EngineOk.wordOk {s : State} (h : s.EngineOk) : WordOk s := { h with }

theorem shiftOut_wordOk {s : State} (h : WordOk s) (hbits : s.nbits ≠ 0) : WordOk (shiftOut s) := by
  have hpred : (s.nbits - 1).toNat ≤ s.nbits.toNat := by bv_omega
  rw [shiftOut_of_bits hbits]
  exact {
    bits := hpred.trans h.bits
    dataBits := fun hst => hpred.trans (h.dataBits hst)
    noBits := fun hst => absurd (h.noBits hst) hbits
    mark := h.mark }

@[simp] theorem nbitsPred_loadPp (b : BitVec 16) (s : State) : nbitsPred (loadPp b s) = 15 := by simp [nbitsPred]

@[simp] theorem nbitsPred_loadData (b : BitVec 9) (f : Bool) (s : State) : nbitsPred (loadData b f s) = 8 := by
  simp [nbitsPred]

theorem fetch_wordOk (w : Word) (s : State) : WordOk (shiftOut (loadWord w s)) := by
  rcases loadWord_cases w s with ⟨_, e⟩ | ⟨_, e⟩ <;> rw [e]
  · exact ⟨by simp, nofun, nofun, nofun⟩
  · exact ⟨by simp, fun _ => by simp, nofun, fun _ => rfl⟩

/-- NEXT_BIT leaves NBITS in the range of the ST it chooses, and FINAL only beside a data byte (R95). -/
theorem nextBit_wordOk {s : State} (h : WordOk s) : WordOk (nextBit s) := by
  rcases nextBit_cases s with ⟨hbits, e⟩ | ⟨h0, _, _, e⟩ | ⟨w, rest, _, _, _, e⟩ | ⟨h0, hend, _, e⟩ <;> rw [e]
  · exact shiftOut_wordOk h hbits
  · exact ⟨h.bits, nofun, fun _ => h0, nofun⟩
  · exact fetch_wordOk w _
  · exact ⟨h.bits, nofun, fun _ => h0, fun hmark => absurd ⟨h.mark hmark, hmark⟩ hend⟩

/-- NEXT_BIT does not drive the line (R95). -/
@[simp] theorem nextBit_line (s : State) : (nextBit s).line = s.line := by
  obtain ⟨_, _, _, _, _, _, e, _⟩ := nextBit_frame s
  rw [e]

/-- A half-cycle that has just begun has its full length, and clause (a) says nothing of it. -/
theorem engineOk_of_halfCycleBegun {s : State} (hword : WordOk s) (hhc : s.hc = half s.cur)
    (hlevel : s.line = !s.phase) : s.EngineOk := by
  obtain ⟨bits, dataBits, noBits, mark⟩ := hword
  refine ⟨fun h0 => ?_, fun _ => hlevel, by rw [hhc], bits, dataBits, noBits, mark⟩
  have := half_pos s.cur
  simp [← hhc, h0] at this

/-- The line is low where a bit begins: before the first bit by clause (a), after a second half-cycle by clause (b). -/
theorem line_low_of_bitEnd {s : State} (h : s.EngineOk) (hend : s.hc = 0 ∨ (s.hc = 1 ∧ s.phase = true)) :
    s.line = false := by
  rcases hend with h0 | ⟨h1, hphase⟩
  · exact (h.fresh h0).1
  · simpa [hphase] using h.level (by simp [h1])

theorem engineClock_engineOk {s : State} (h : s.EngineOk) : (engineClock s).EngineOk := by
  rcases engineClock_cases s with ⟨_, e⟩ | ⟨_, h2, e⟩ | ⟨_, h1, hphase, e⟩ | ⟨_, hend, e⟩ <;> rw [e]
  · exact h
  · have hpred : (s.hc - 1).toNat = s.hc.toNat - 1 := by bv_omega
    have hne : s.hc ≠ 0 := by bv_omega
    exact {
      h with
      fresh := fun h0 => absurd h0 (by bv_omega)
      level := fun _ => h.level hne
      count := by have := h.count; simp only [hpred]; omega }
  · have hline : s.line = true := by simpa [hphase] using h.level (by simp [h1])
    exact engineOk_of_halfCycleBegun { h.wordOk with } rfl (by simp [hline])
  · exact engineOk_of_halfCycleBegun { nextBit_wordOk h.wordOk with } rfl (by simp [line_low_of_bitEnd h hend])

/-! ## Every operation keeps the invariant -/

theorem engineClock_inv {s : State} (h : s.Inv) : (engineClock s).Inv := by
  have hengine := engineClock_engineOk h.engine
  obtain ⟨_, _, _, _, _, _, _, _, q', e, hq⟩ := engineClock_frame s
  have hlen : q'.length ≤ s.q.length := by rcases hq with rfl | rfl <;> simp
  rw [e] at hengine ⊢
  exact { h with engine := hengine, queue := hlen.trans h.queue }

theorem enqueue_inv (ws : List Word) {s : State} (h : s.Inv) : (enqueue ws s).Inv := by
  have hlen := enqueue_length_le ws s h.queue
  obtain ⟨vs, o, e, _⟩ := enqueue_frame ws s
  rw [e] at hlen ⊢
  exact (h.with_queue hlen).with_unread

theorem send_inv (p : List Byte) {s : State} (h : s.Inv) : (send p s).Inv := by
  rcases send_cases p s with ⟨_, e⟩ | ⟨_, _, e⟩ | ⟨_, hfits, e⟩ <;> rw [e]
  · exact h.with_unread
  · exact h.with_unread
  · exact h.with_queue (by simpa using hfits)

/-- TICK leaves CURSOR at most one past an entry: the registry is too short for CURSOR to wrap. -/
theorem tick_inv {s : State} (h : s.Inv) : (tick s).Inv := by
  rcases tick_cases s with ⟨_, e⟩ | ⟨entry, hget, _, e⟩ <;> rw [e]
  · exact send_inv _ h
  · have hlt : (tickIndex s).toNat < s.reg.length := (List.getElem?_eq_some_iff.mp hget).1
    have hdepth : s.reg.length ≤ 20478 := h.registry.depth
    exact send_inv _ (h.with_cursor (by bv_omega))

theorem timerClock_inv {s : State} (h : s.Inv) : (timerClock s).Inv := by
  rcases timerClock_cases s with ⟨_, e⟩ | ⟨hon, h2, e⟩ | ⟨_, _, e⟩ <;> rw [e]
  · exact h
  · have hmax : s.tcnt.toNat ≤ 15000 := (h.timer hon).2
    exact h.with_timer (by bv_omega)
  · exact tick_inv (h.with_timer (by decide))

theorem clockStep_inv {s : State} (h : s.Inv) : (clockStep s).Inv := timerClock_inv (engineClock_inv h)

theorem powerOn_inv {s : State} (h : s.Inv) : (powerOn s).Inv :=
  ((h.with_power (fun _ => by decide)).with_cursor (Nat.zero_le _)).with_unread

theorem powerOff_inv {s : State} (h : s.Inv) : (powerOff s).Inv :=
  (h.with_power (b := false) (n := s.tcnt) nofun).with_unread

/-- An update of the registry removes no entry (R21). -/
theorem regUpdate_length_le {c : Cls} {a : Addr} {f : Byte → Byte} {p : List Byte} {s t : State}
    (h : regUpdate c a f p s = .next t) : s.reg.length ≤ t.reg.length := by
  rcases regUpdate_cases c a f p s with ⟨k, _, e⟩ | ⟨_, _, e⟩ | ⟨_, _, e⟩ <;> rw [e] at h
  · cases h; simp
  · cases h; simp
  · cases h

theorem setSpeed_length_le {a : Addr} {d v : Byte} {s t : State} (h : setSpeed a d v s = .next t) :
    s.reg.length ≤ t.reg.length := by
  rcases setSpeed_cases a d v s with ⟨_, e⟩ | ⟨_, e⟩ <;> rw [e] at h
  · cases h; simp
  · exact regUpdate_length_le h

theorem setFg1_length_le {a : Addr} {i x : Byte} {s t : State} (h : setFg1 a i x s = .next t) :
    s.reg.length ≤ t.reg.length := by
  rcases setFg1_cases a i x s with ⟨_, e⟩ | ⟨_, e⟩ <;> rw [e] at h
  · cases h; simp
  · exact regUpdate_length_le h

/-- A command that wrote REG and the response only keeps the invariant where the registry stays good and loses nothing. -/
theorem State.Inv.of_registryCommand {s t : State} (h : s.Inv) (hframe : ∃ g r, t = { s with reg := g, ret := r })
    (hok : RegOk t.reg) (hle : s.reg.length ≤ t.reg.length) : t.Inv := by
  obtain ⟨g, r, rfl⟩ := hframe
  exact (h.with_registry hok hle).with_unread

theorem setSpeed_inv {a : Addr} {d v : Byte} {s t : State} (h : s.Inv) (hx : setSpeed a d v s = .next t) : t.Inv :=
  h.of_registryCommand (setSpeed_frame hx) (setSpeed_regOk h.registry hx) (setSpeed_length_le hx)

theorem setFg1_inv {a : Addr} {i x : Byte} {s t : State} (h : s.Inv) (hx : setFg1 a i x s = .next t) : t.Inv :=
  h.of_registryCommand (setFg1_frame hx) (setFg1_regOk h.registry hx) (setFg1_length_le hx)

theorem respond_inv (ok : Bool) {s : State} (h : s.Inv) : (respond ok s).Inv :=
  h.with_unread

/-- A decoded command runs one of the six command operations (R73, R166). -/
theorem exec_decodeCommand_inv {w : CmdWord} {s t : State} (h : s.Inv) (hx : exec (decodeCommand w) s = .next t) :
    t.Inv := by
  unfold decodeCommand at hx
  split at hx
  · cases hx; exact respond_inv true h
  · cases hx; exact powerOff_inv h
  · cases hx; exact powerOn_inv h
  · exact setSpeed_inv h hx
  · exact setFg1_inv h hx
  · cases hx; exact respond_inv false h

/-- Settles O58, by the five kinds of step: taking an action off the port changes no register the invariant reads, and
every operation a step runs keeps it. -/
theorem stepKeepsTheInvariant : Obligations.StepKeepsTheInvariant := by
  intro s t h hstep
  have hport (rest : List Stimulus) : ({ s with port := rest } : State).Inv :=
    h.with_unread
  rcases step_cases hstep with ⟨rest, _, rfl⟩ | ⟨w, rest, _, hexec⟩ | ⟨w, rest, _, rfl⟩ | ⟨ws, rest, _, rfl⟩ |
    ⟨rest, _, rfl⟩
  · exact clockStep_inv (hport rest)
  · exact exec_decodeCommand_inv (hport rest) hexec
  · exact enqueue_inv [w] (hport rest)
  · exact enqueue_inv ws (hport rest)
  · exact reset_inv.with_unread

end Sys2Proof.Machine

/-! # Proofs: the queue and the stream (spec/20_memory.md)

A step is the engine's half of a clock step, or nothing, and then words put at the end of Q. The first takes at most the
first bit of what the core owes the line and at most the head of Q; the second adds the line bits of the new words at the
end. -/

namespace Sys2Proof.Machine

/-! ## The actions of the total order (R46) -/

/-- Settles O8: each is the branch of `step` for that head of `port`. -/
theorem stepTakesTheOtherActions : Obligations.StepTakesTheOtherActions := by
  intro s rest
  exact ⟨fun h => by simp only [step, h], fun h => by simp only [step, h], fun w h => by simp only [step, h],
    fun ws h => by simp only [step, h], fun h => by simp only [step, h, resetCore]⟩

/-! ## Bits of a word, earliest first (R41) -/

/-- Shifting left by one takes the first bit off. -/
theorem take_bitsOf_shiftLeft {n k : Nat} (v : BitVec n) (h : k < n) :
    (bitsOf v).take (k + 1) = v.msb :: (bitsOf (v <<< 1)).take k := by
  have hshift : ∀ i ∈ List.range k, v.getMsbD (i + 1) = (v <<< 1).getMsbD i := fun i _ =>
    (BitVec.getMsbD_shiftLeft v 1).symm
  simp only [bitsOf, ← List.map_take, List.take_range, Nat.min_eq_left (show k + 1 ≤ n by omega),
    Nat.min_eq_left (show k ≤ n by omega), List.range_succ_eq_map, List.map_cons, List.map_map, BitVec.msb]
  exact congrArg _ (List.map_congr_left hshift)

/-- The first bits of a concatenation are those of its upper part. -/
theorem take_bitsOf_append {n m : Nat} (v : BitVec n) (u : BitVec m) : (bitsOf (v ++ u)).take n = bitsOf v := by
  have hupper : ∀ i ∈ List.range n, (v ++ u).getMsbD i = v.getMsbD i := by
    intro i hi
    simp [BitVec.getMsbD_append, List.mem_range.mp hi]
  simp only [bitsOf, ← List.map_take, List.take_range, Nat.min_eq_left (Nat.le_add_right n m)]
  exact List.map_congr_left hupper

@[simp] theorem bitsOf_length {n : Nat} (v : BitVec n) : (bitsOf v).length = n := by simp [bitsOf]

@[simp] theorem lineBits_nil : lineBits [] = [] := rfl

@[simp] theorem lineBits_cons (w : Word) (ws : List Word) : lineBits (w :: ws) = emitWord w ++ lineBits ws := rfl

@[simp] theorem lineBits_append (vs ws : List Word) : lineBits (vs ++ ws) = lineBits vs ++ lineBits ws :=
  List.flatMap_append

/-! ## NEXT_BIT takes the first bit owed (R95, R107) -/

/-- SHIFT_OUT starts the first bit of the word in SR and owes the rest. -/
theorem shiftOut_residue {s : State} (h0 : s.nbits ≠ 0) (h16 : s.nbits.toNat ≤ 16) :
    s.residue = (shiftOut s).cur :: (shiftOut s).residue := by
  obtain ⟨k, hk⟩ : ∃ k, s.nbits.toNat = k + 1 := ⟨s.nbits.toNat - 1, by bv_omega⟩
  have hpred : (s.nbits - 1).toNat = k := by bv_omega
  rw [shiftOut_of_bits h0]
  simp only [State.residue, hpred, hk, take_bitsOf_shiftLeft s.sr (show k < 16 by omega), List.cons_append]

theorem loadWord_nbits (w : Word) (s : State) : (loadWord w s).nbits = 16 ∨ (loadWord w s).nbits = 9 := by
  rcases loadWord_cases w s with ⟨_, e⟩ | ⟨_, e⟩ <;> rw [e]
  · exact .inl rfl
  · exact .inr rfl

/-- After LOAD_WORD the core owes the line bits of the word, its end bit with them, and of Q (R97 to R100). -/
theorem loadWord_residue (w : Word) (s : State) : (loadWord w s).residue = emitWord w ++ lineBits s.q := by
  rcases loadWord_cases w s with ⟨hpp, e⟩ | ⟨hdb, e⟩ <;> rw [e]
  · have hall : (bitsOf (w.extractLsb' 0 16)).take 16 = bitsOf (w.extractLsb' 0 16) := List.take_of_length_le (by simp)
    simp [State.residue, emitWord, hpp, hall]
  · have hupper : (bitsOf (w.extractLsb' 0 9 ++ 0#7)).take 9 = bitsOf (w.extractLsb' 0 9) := take_bitsOf_append _ _
    simp [State.residue, emitWord, -BitVec.getLsbD_eq_getElem, hdb, hupper]

/-- NEXT_BIT takes the first bit the core owes; where it owes none, none is owed after it, the bit is a `0` and Q is as it
was (R95, R101, R105, R107). -/
theorem nextBit_residue {s : State} (h16 : s.nbits.toNat ≤ 16) :
    s.residue = (nextBit s).cur :: (nextBit s).residue ∨
    (s.residue = [] ∧ (nextBit s).cur = false ∧ (nextBit s).residue = [] ∧ (nextBit s).q = s.q) := by
  rcases nextBit_cases s with ⟨hbits, e⟩ | ⟨h0, hst, hmark, e⟩ | ⟨w, rest, h0, hend, hq, e⟩ | ⟨h0, hend, hq, e⟩ <;> rw [e]
  · exact .inl (shiftOut_residue hbits h16)
  · left; simp [State.residue, h0, hst, hmark]
  · left
    have howed : s.residue = (loadWord w { s with q := rest }).residue := by
      rw [loadWord_residue]
      simp [State.residue, h0, hend, hq]
    rw [howed]
    rcases loadWord_nbits w { s with q := rest } with h | h
    · exact shiftOut_residue (by simp [h]) (by simp [h])
    · exact shiftOut_residue (by simp [h]) (by simp [h])
  · right; simp [State.residue, h0, hend, hq]

theorem nextBit_of_residue_cons {s : State} {b : Bool} {rest : List Bool} (h16 : s.nbits.toNat ≤ 16)
    (h : s.residue = b :: rest) : (nextBit s).cur = b ∧ (nextBit s).residue = rest := by
  rcases nextBit_residue h16 with howed | ⟨hnil, _⟩
  · exact List.cons_eq_cons.mp (howed.symm.trans h)
  · simp [hnil] at h

theorem nextBit_of_residue_nil {s : State} (h16 : s.nbits.toNat ≤ 16) (h : s.residue = []) :
    (nextBit s).cur = false ∧ (nextBit s).residue = [] ∧ (nextBit s).q = s.q := by
  rcases nextBit_residue h16 with howed | ⟨_, hnone⟩
  · simp [h] at howed
  · exact hnone

/-- NEXT_BIT takes the head of Q exactly where no bit and no end bit of the current word is left (R95). -/
theorem nextBit_q (s : State) : (nextBit s).q =
    if s.nbits = 0 ∧ ¬ (s.st = .emitStartAndByte ∧ s.finalMark = true) then s.q.tail else s.q := by
  rcases nextBit_cases s with ⟨hbits, e⟩ | ⟨_, hst, hmark, e⟩ | ⟨w, rest, h0, hend, hq, e⟩ | ⟨h0, hend, hq, e⟩ <;> rw [e]
  · rw [if_neg fun h => hbits h.1]; rfl
  · rw [if_neg fun h => h.2 ⟨hst, hmark⟩]
  · rw [if_pos ⟨h0, hend⟩]
    rcases loadWord_cases w { s with q := rest } with ⟨_, e'⟩ | ⟨_, e'⟩ <;> simp [e', hq]
  · rw [if_pos ⟨h0, hend⟩]; simp [hq]

/-! ## Words put at the end of Q -/

/-- From `s` to `t` the words `ws` join Q at its end and their line bits join what the core owes; the bit on the line
stays. -/
def Appends (s : State) (ws : List Word) (t : State) : Prop :=
  t.cur = s.cur ∧ t.q = s.q ++ ws ∧ t.residue = s.residue ++ lineBits ws

/-- An update that leaves the engine's registers alone and puts `ws` at the end of Q. -/
theorem Appends.of_sameEngine {s t : State} {ws : List Word} (hq : t.q = s.q ++ ws)
    (hsame : SameEngine s t := by exact ⟨rfl, rfl, rfl, rfl, rfl, rfl, rfl, rfl⟩) : Appends s ws t := by
  obtain ⟨hst, hsr, hnbits, hmark, hcur, _⟩ := hsame
  refine ⟨hcur, hq, ?_⟩
  simp [State.residue, hst, hsr, hnbits, hmark, hq]

/-- Nothing joins Q, and the stream stays. -/
theorem Appends.nothing {s t : State} (hcur : t.cur = s.cur := by rfl) (hq : t.q = s.q := by rfl)
    (hres : t.residue = s.residue := by rfl) : Appends s [] t :=
  ⟨hcur, by simp [hq], by simp [hres]⟩

theorem Appends.trans {s t u : State} {vs ws : List Word} (h : Appends s vs t) (h' : Appends t ws u) :
    Appends s (vs ++ ws) u := by
  obtain ⟨hcur, hq, hres⟩ := h
  obtain ⟨hcur', hq', hres'⟩ := h'
  exact ⟨hcur'.trans hcur, by simp [hq', hq], by simp [hres', hres]⟩

/-- ENQUEUE appends the first words for which there is room, and latches QOVF where some are left over (R93). -/
theorem enqueue_eq (ws : List Word) : ∀ s : State, enqueue ws s =
    { s with q := s.q ++ ws.take (8 - s.q.length), qovf := s.qovf || decide (8 - s.q.length < ws.length) } := by
  induction ws with
  | nil => intro s; simp
  | cons w ws ih =>
    intro s
    by_cases h : s.q.length < 8
    · obtain ⟨k, hk⟩ : ∃ k, 8 - s.q.length = k + 1 := ⟨7 - s.q.length, by omega⟩
      have hk' : 8 - (s.q.length + 1) = k := by omega
      rw [enqueue_cons, qPush_of_room h, ih]
      simp [hk, hk']
    · have hfull : 8 - s.q.length = 0 := by omega
      rw [enqueue_cons, qPush_of_full (by omega), ih]
      simp [hfull]

theorem enqueue_appends (ws : List Word) (s : State) : ∃ vs, vs <+: ws ∧ Appends s vs (enqueue ws s) := by
  rw [enqueue_eq]
  exact ⟨_, List.take_prefix _ _, .of_sameEngine rfl⟩

theorem qPush_appends (w : Word) (s : State) : ∃ vs, (vs = [] ∨ vs = [w]) ∧ Appends s vs (qPush w s) := by
  by_cases h : s.q.length < 8
  · rw [qPush_of_room h]; exact ⟨[w], .inr rfl, .of_sameEngine rfl⟩
  · rw [qPush_of_full (by omega)]; exact ⟨[], .inl rfl, .nothing⟩

theorem send_appends (p : List Byte) (s : State) : ∃ ws, (ws = [] ∨ ws = frame p) ∧ Appends s ws (send p s) := by
  rcases send_cases p s with ⟨_, e⟩ | ⟨_, _, e⟩ | ⟨_, _, e⟩ <;> rw [e]
  · exact ⟨[], .inl rfl, .nothing⟩
  · exact ⟨[], .inl rfl, .nothing⟩
  · exact ⟨frame p, .inr rfl, .of_sameEngine rfl⟩

/-- What a tick may send: the idle packet from an empty registry, else the payload of an entry (R143). -/
def State.TickSends (s : State) (p : List Byte) : Prop :=
  (s.reg = [] ∧ p = Config.idlePayload) ∨ ∃ e ∈ s.reg, p = e.payload

theorem tick_appends (s : State) :
    ∃ p ws, s.TickSends p ∧ (ws = [] ∨ ws = frame p) ∧ Appends s ws (tick s) := by
  rcases tick_cases s with ⟨hreg, e⟩ | ⟨entry, _, hmem, e⟩ <;> rw [e]
  · obtain ⟨ws, hws, happ⟩ := send_appends [0xFF, 0x00] s
    exact ⟨_, ws, .inl ⟨hreg, rfl⟩, hws, happ⟩
  · obtain ⟨ws, hws, happ⟩ := send_appends entry.payload { s with cursor := tickIndex s + 1 }
    exact ⟨_, ws, .inr ⟨entry, hmem, rfl⟩, hws, happ⟩

/-- What the timer's half of a clock step may append: nothing, or the whole frame of what a due tick sends (R148). -/
def State.TimerOffers (s : State) (ws : List Word) : Prop :=
  ws = [] ∨ (s.schedRun = true ∧ s.tcnt.toNat ≤ 1 ∧ ∃ p, s.TickSends p ∧ ws = frame p)

theorem timerClock_appends (s : State) : ∃ ws, s.TimerOffers ws ∧ Appends s ws (timerClock s) := by
  rcases timerClock_cases s with ⟨_, e⟩ | ⟨_, _, e⟩ | ⟨hon, hdue, e⟩ <;> rw [e]
  · exact ⟨[], .inl rfl, .nothing⟩
  · exact ⟨[], .inl rfl, .nothing⟩
  · obtain ⟨p, ws, hsends, hws, happ⟩ := tick_appends { s with tcnt := 15000 }
    exact ⟨ws, hws.imp_right fun hframe => ⟨hon, hdue, p, hsends, hframe⟩, happ⟩

/-- The timer reads no register the engine writes. -/
theorem timerOffers_engineClock {s : State} {ws : List Word} (h : (engineClock s).TimerOffers ws) :
    s.TimerOffers ws := by
  obtain ⟨_, _, _, _, _, _, _, _, _, e, _⟩ := engineClock_frame s
  rw [e] at h
  exact h

theorem exec_decodeCommand_appends {w : CmdWord} {s t : State} (h : exec (decodeCommand w) s = .next t) :
    Appends s [] t := by
  rcases exec_decodeCommand_frame h with rfl | rfl | ⟨g, r, rfl⟩
  · exact .nothing
  · exact .nothing
  · exact .nothing

/-! ## A step is the engine's half of a clock step, or nothing, and then words put at the end of Q -/

/-- The next action is a clock period (R46, log 1). -/
def State.ClockNext (s : State) : Prop := s.port = [] ∨ s.port.head? = some .clock

theorem clockNext_iff {s : State} :
    s.ClockNext ↔ s.port = [] ∨ ∃ rest, s.port = .clock :: rest := by
  simp [State.ClockNext, List.head?_eq_some_iff]

/-- A clock period offers what the timer's half may append (R149). -/
theorem offers_of_clockNext {s : State} {ws : List Word} (hnext : s.ClockNext) (h : s.TimerOffers ws) : s.Offers ws := by
  rcases clockNext_iff.mp hnext with hport | ⟨rest, hport⟩
  · simp only [State.Offers, hport]; exact h
  · simp only [State.Offers, hport]; exact h

/-- A step other than reset puts words its action offers at the end of Q; in a clock period the engine's half comes first
(R46, R149). -/
theorem step_appends {s t : State} (hrst : s.port.head? ≠ some .rst) (h : step s = .next t) :
    ∃ ws, s.Offers ws ∧
      ((s.ClockNext ∧ ∃ p, Appends (engineClock { s with port := p }) ws t) ∨ (¬ s.ClockNext ∧ Appends s ws t)) := by
  rcases step_cases h with ⟨p, hport, rfl⟩ | ⟨w, p, hport, hexec⟩ | ⟨w, p, hport, rfl⟩ | ⟨vs, p, hport, rfl⟩ |
    ⟨p, hport, _⟩
  · have hnext : s.ClockNext := clockNext_iff.mpr (hport.imp And.left fun hclock => ⟨p, hclock⟩)
    obtain ⟨ws, hoffers, happ⟩ := timerClock_appends (engineClock { s with port := p })
    exact ⟨ws, offers_of_clockNext hnext (timerOffers_engineClock (s := { s with port := p }) hoffers),
      .inl ⟨hnext, p, happ⟩⟩
  · exact ⟨[], by simp [State.Offers, hport], .inr ⟨by simp [clockNext_iff, hport],
      exec_decodeCommand_appends (s := { s with port := p }) hexec⟩⟩
  · obtain ⟨ws, hws, happ⟩ := qPush_appends w { s with port := p }
    exact ⟨ws, by simpa [State.Offers, hport] using hws, .inr ⟨by simp [clockNext_iff, hport], happ⟩⟩
  · obtain ⟨ws, hws, happ⟩ := enqueue_appends vs { s with port := p }
    exact ⟨ws, by simpa [State.Offers, hport] using hws, .inr ⟨by simp [clockNext_iff, hport], happ⟩⟩
  · simp [hport] at hrst

/-- Settles O22: the engine's half of a clock step leaves Q or its tail, and no other part of a step removes a word. -/
theorem stepKeepsTheQueueInOrder : Obligations.StepKeepsTheQueueInOrder := by
  intro s t hrst h
  obtain ⟨ws, _, ⟨_, p, _, hq, _⟩ | ⟨_, _, hq, _⟩⟩ := step_appends hrst h
  · obtain ⟨_, _, _, _, _, _, _, _, q', e, hq'⟩ := engineClock_frame { s with port := p }
    rw [e] at hq
    exact ⟨ws, hq'.imp (fun h' => by rw [hq, h']) (fun h' => by rw [hq, h'])⟩
  · exact ⟨ws, .inl hq⟩

/-! ## The stream (R105, R107) -/

/-- The bit on the line has just ended, or none has begun (R94). -/
def State.BitEnded (s : State) : Prop := s.hc = 0 ∨ (s.hc = 1 ∧ s.phase = true)

/-- The engine is stopped or inside a bit: a clock leaves the stream as it is (R94). -/
theorem engineClock_appends_nothing {s : State} (h : ¬ (s.run = true ∧ s.BitEnded)) :
    Appends s [] (engineClock s) := by
  rcases engineClock_cases s with ⟨_, e⟩ | ⟨_, _, e⟩ | ⟨_, _, _, e⟩ | ⟨hrun, hend, _⟩
  · rw [e]; exact .nothing
  · rw [e]; exact .nothing
  · rw [e]; exact .nothing
  · exact absurd ⟨hrun, hend⟩ h

/-- The engine begins a bit: it is the one NEXT_BIT chooses (R94). -/
theorem engineClock_of_bitEnded {s : State} (hrun : s.run = true) (hend : s.BitEnded) :
    engineClock s = beginBit (nextBit s) := by
  rcases engineClock_cases s with ⟨hstop, _⟩ | ⟨_, h2, _⟩ | ⟨_, h1, hphase, _⟩ | ⟨_, _, e⟩
  · simp [hrun] at hstop
  · rcases hend with h0 | ⟨h1, _⟩
    · simp [h0] at h2
    · simp [h1] at h2
  · simp [State.BitEnded, h1, hphase] at hend
  · exact e

/-- Settles O60: the engine's half of a clock step takes the first bit of the stream where a bit begins and leaves the
stream alone elsewhere; the words that then join Q join the stream at its end. -/
theorem wordsGoOutOnceAndInOrder : Obligations.WordsGoOutOnceAndInOrder := by
  intro s t hinv hrst hstep
  obtain ⟨ws, hoffers, ⟨hnext, p, happ⟩ | ⟨hnot, happ⟩⟩ := step_appends hrst hstep
  · have hbegins (hbegin : s.BeginsBit) : Appends (nextBit { s with port := p }) ws t := by
      obtain ⟨_, hrun, hend⟩ := hbegin
      rw [engineClock_of_bitEnded (s := { s with port := p }) hrun hend] at happ
      exact happ
    have h16 : ({ s with port := p } : State).nbits.toNat ≤ 16 := hinv.engine.bits
    refine ⟨ws, hoffers, fun hidle => ?_, fun hbegin hnil => ?_, fun hbegin b rest hcons => ?_⟩
    · have hengine : Appends s [] (engineClock { s with port := p }) :=
        engineClock_appends_nothing (s := { s with port := p }) fun ⟨hrun, hend⟩ => hidle ⟨hnext, hrun, hend⟩
      exact hengine.trans happ
    · obtain ⟨hcur, hq, hres⟩ := hbegins hbegin
      obtain ⟨hzero, hnone, hkept⟩ := nextBit_of_residue_nil h16 hnil
      exact ⟨hcur.trans hzero, by rw [hq, hkept], by rw [hres, hnone, List.nil_append]⟩
    · obtain ⟨hcur, hq, hres⟩ := hbegins hbegin
      obtain ⟨hfirst, hrest⟩ := nextBit_of_residue_cons h16 hcons
      rw [nextBit_q] at hq
      refine ⟨hcur.trans hfirst, by rw [hres, hrest], fun hinside => ?_, fun hboundary => ?_⟩
      · rwa [if_neg fun h => hinside ⟨hbegin.2.2, h⟩] at hq
      · rwa [if_pos hboundary.2] at hq
  · have hidle : ¬ s.BeginsBit := fun hbegin => hnot hbegin.1
    exact ⟨ws, hoffers, fun _ => happ, fun hbegin => absurd hbegin hidle, fun hbegin => absurd hbegin hidle⟩

end Sys2Proof.Machine

/-! # Proofs: the encodings (spec/30_encoding.md)

The encoder's three word builders (`ppControl`, `dbControl`, `commandWord`) and the decoder's fields are inverse to each
other. So decoding undoes encoding, instruction by instruction; and as every word is built from its fields, it is the
encoding of some well-formed instruction, which is then the one it decodes to. -/

namespace Sys2Proof

/-! ## The fields of a word the encoder built (R61, R62, R72) -/

/-- The middle one of three parts of a value. -/
theorem extractLsb'_append_append {n m k : Nat} (u : BitVec n) (v : BitVec m) (t : BitVec k) :
    (u ++ v ++ t).extractLsb' k m = v := by
  rw [BitVec.extractLsb'_append_eq_of_le (Nat.le_refl k), Nat.sub_self, BitVec.extractLsb'_append_eq_right]

theorem getLsbD_ppControl_marker (r : BitVec 15) (b : BitVec 16) : (ppControl r b).getLsbD 31 = true := by
  simp only [ppControl, getLsbD_insertBit (Nat.le_refl 31)]; rfl

@[simp] theorem ppReserved_ppControl (r : BitVec 15) (b : BitVec 16) : ppReserved (ppControl r b) = r := by
  rw [ppReserved, ppControl, removeBit_insertBit (Nat.le_refl 31), BitVec.extractLsb'_append_eq_left]

@[simp] theorem ppBits_ppControl (r : BitVec 15) (b : BitVec 16) : ppBits (ppControl r b) = b := by
  rw [ppBits, ppControl_eq, BitVec.extractLsb'_append_eq_right]

section DataByte

variable (f : Bool) (r : BitVec 21) (s : BitVec 1) (d : Byte)

theorem getLsbD_dbControl_marker : (dbControl f r s d).getLsbD 31 = false := by
  simp only [dbControl, getLsbD_insertBit (Nat.le_refl 31)]; rfl

theorem getLsbD_dbControl_final : (dbControl f r s d).getLsbD 30 = f := by
  simp [dbControl, -BitVec.getLsbD_eq_getElem, getLsbD_insertBit, fbBitBesidePp]

@[simp] theorem dbReserved_dbControl : dbReserved (dbControl f r s d) = r := by
  rw [dbReserved_eq, dbControl_eq, BitVec.extractLsb'_append_eq_of_le (show 8 ≤ 9 by decide)]
  exact extractLsb'_append_append ..

@[simp] theorem dbStart_dbControl : dbStart (dbControl f r s d) = s := by
  rw [dbStart, dbControl_eq]
  exact extractLsb'_append_append ..

@[simp] theorem dbData_dbControl : dbData (dbControl f r s d) = d := by
  rw [dbData, dbControl_eq, BitVec.extractLsb'_append_eq_right]

end DataByte

section Command

variable (op r : BitVec 4) (a : Addr) (x y : Byte)

@[simp] theorem cmdOp_commandWord : cmdOp (commandWord op r a x y) = op := by
  rw [cmdOp, commandWord, BitVec.extractLsb'_append_eq_of_le (show 8 ≤ 36 by decide),
    BitVec.extractLsb'_append_eq_of_le (by decide), BitVec.extractLsb'_append_eq_of_le (by decide)]
  exact BitVec.extractLsb'_append_eq_left

@[simp] theorem cmdReserved_commandWord : cmdReserved (commandWord op r a x y) = r := by
  rw [cmdReserved, commandWord, BitVec.extractLsb'_append_eq_of_le (show 8 ≤ 32 by decide),
    BitVec.extractLsb'_append_eq_of_le (by decide)]
  exact extractLsb'_append_append ..

@[simp] theorem cmdAddress_commandWord : cmdAddress (commandWord op r a x y) = a := by
  rw [cmdAddress, commandWord, BitVec.extractLsb'_append_eq_of_le (show 8 ≤ 16 by decide)]
  exact extractLsb'_append_append ..

@[simp] theorem cmdArg1_commandWord : cmdArg1 (commandWord op r a x y) = x := by
  rw [cmdArg1, commandWord]
  exact extractLsb'_append_append ..

@[simp] theorem cmdArg2_commandWord : cmdArg2 (commandWord op r a x y) = y := by
  rw [cmdArg2, commandWord, BitVec.extractLsb'_append_eq_right]

end Command

/-! ## Every word is built from its fields -/

theorem ofBool_getLsbD {n : Nat} (v : BitVec n) (i : Nat) : BitVec.ofBool (v.getLsbD i) = v.extractLsb' i 1 := by
  apply BitVec.eq_of_getLsbD_eq; simp [-BitVec.getLsbD_eq_getElem]

theorem ppControl_fields {w : Word} (h : w.getLsbD 31 = true) : ppControl (ppReserved w) (ppBits w) = w := by
  have hmark : 1#1 = w.extractLsb' 31 1 := by rw [← ofBool_getLsbD, h]; rfl
  rw [ppControl_eq, ppReserved_eq, ppBits, hmark,
    BitVec.extractLsb'_append_extractLsb'_eq_extractLsb' (rfl : 31 = 16 + 15),
    BitVec.extractLsb'_append_extractLsb'_eq_extractLsb' (rfl : 16 = 0 + 16)]
  exact BitVec.extractLsb'_eq_self

theorem dbControl_fields {w : Word} (h : w.getLsbD 31 = false) :
    dbControl (w.getLsbD 30) (dbReserved w) (dbStart w) (dbData w) = w := by
  have hmark : 0#1 = w.extractLsb' 31 1 := by rw [← ofBool_getLsbD, h]; rfl
  rw [dbControl_eq, dbReserved_eq, dbStart, dbData, hmark, ofBool_getLsbD,
    BitVec.extractLsb'_append_extractLsb'_eq_extractLsb' (rfl : 31 = 30 + 1),
    BitVec.extractLsb'_append_extractLsb'_eq_extractLsb' (rfl : 30 = 9 + 21),
    BitVec.extractLsb'_append_extractLsb'_eq_extractLsb' (rfl : 9 = 8 + 1),
    BitVec.extractLsb'_append_extractLsb'_eq_extractLsb' (rfl : 8 = 0 + 8)]
  exact BitVec.extractLsb'_eq_self

theorem commandWord_fields (w : CmdWord) :
    commandWord (cmdOp w) (cmdReserved w) (cmdAddress w) (cmdArg1 w) (cmdArg2 w) = w := by
  rw [commandWord, cmdOp, cmdReserved, cmdAddress, cmdArg1, cmdArg2,
    BitVec.extractLsb'_append_extractLsb'_eq_extractLsb' (rfl : 36 = 32 + 4),
    BitVec.extractLsb'_append_extractLsb'_eq_extractLsb' (rfl : 32 = 16 + 16),
    BitVec.extractLsb'_append_extractLsb'_eq_extractLsb' (rfl : 16 = 8 + 8),
    BitVec.extractLsb'_append_extractLsb'_eq_extractLsb' (rfl : 8 = 0 + 8)]
  exact BitVec.extractLsb'_eq_self

/-! ## Decoding undoes encoding -/

/-- A word with the marker at PP_BIT is a PP word, under its own name where its bits are all ones or all zeros (R61). -/
theorem decodeControl_ppControl (r : BitVec 15) (b : BitVec 16) :
    decodeControl (ppControl r b) = if b = 0xFFFF then .preamble r else if b = 0 then .pad r else .pp r b := by
  rw [decodeControl, if_pos (getLsbD_ppControl_marker r b), ppBits_ppControl, ppReserved_ppControl]

/-- A word without it is a data-byte word, final or not as the marker at FB_BIT says (R62). -/
theorem decodeControl_dbControl (f : Bool) (r : BitVec 21) (s : BitVec 1) (d : Byte) :
    decodeControl (dbControl f r s d) = if f then .dbf r s d else .db r s d := by
  simp only [decodeControl, Config.ppBit, Config.fbBit, getLsbD_dbControl_marker, getLsbD_dbControl_final,
    Bool.false_eq_true, if_false, dbReserved_dbControl, dbStart_dbControl, dbData_dbControl]

theorem decodeCommand_of_reserved {w : CmdWord} (h : reservedOpOk (cmdOp w) = true) : decodeCommand w =
    .reservedOp (cmdOp w) (cmdReserved w) (cmdAddress w) (cmdArg1 w) (cmdArg2 w) := by
  have hop : 5 ≤ (cmdOp w).toNat := of_decide_eq_true h
  unfold decodeCommand
  split
  case h_6 => rfl
  all_goals omega

theorem decodeControl_of_encode {i : Instr} {w : Word} (hwf : wellFormed i = true)
    (h : encode i = some (.control w)) : decodeControl w = i := by
  cases i with
  | pp r b =>
    cases h
    have hb : b ≠ 0xFFFF ∧ b ≠ 0 := by simpa [wellFormed, ppBitsOk] using hwf
    rw [decodeControl_ppControl, if_neg hb.1, if_neg hb.2]
  | preamble r => cases h; exact decodeControl_ppControl r 0xFFFF
  | pad r => cases h; exact decodeControl_ppControl r 0
  | db r s d => cases h; exact decodeControl_dbControl false r s d
  | dbf r s d => cases h; exact decodeControl_dbControl true r s d
  | _ => cases h

theorem decodeCommand_of_encode {i : Instr} {w : CmdWord} (hwf : wellFormed i = true)
    (h : encode i = some (.command w)) : decodeCommand w = i := by
  cases i with
  | powerQuery r a x y | powerOff r a x y | powerOn r a x y | setSpeed r a x y | setFg1 r a x y =>
    cases h; simp [decodeCommand]
  | reservedOp op r a x y =>
    cases h
    have hop : reservedOpOk (cmdOp (commandWord op r a x y)) = true := by rw [cmdOp_commandWord]; exact hwf
    rw [decodeCommand_of_reserved hop, cmdOp_commandWord, cmdReserved_commandWord, cmdAddress_commandWord,
      cmdArg1_commandWord, cmdArg2_commandWord]
  | _ => cases h

/-! ## Every word is the encoding of a well-formed instruction (R63, R75) -/

theorem exists_encode_control (w : Word) : ∃ i, wellFormed i = true ∧ encode i = some (.control w) := by
  cases hmark : w.getLsbD 31
  · rw [← dbControl_fields hmark]
    cases w.getLsbD 30
    · exact ⟨.db _ _ _, rfl, rfl⟩
    · exact ⟨.dbf _ _ _, rfl, rfl⟩
  · rw [← ppControl_fields hmark]
    by_cases hones : ppBits w = 0xFFFF
    · rw [hones]; exact ⟨.preamble _, rfl, rfl⟩
    by_cases hzeros : ppBits w = 0
    · rw [hzeros]; exact ⟨.pad _, rfl, rfl⟩
    exact ⟨.pp _ _, by simpa [wellFormed, ppBitsOk] using And.intro hones hzeros, rfl⟩

/-- An operation code names one of the five commands or is reserved (R73). -/
theorem op_cases : ∀ op : BitVec 4, op = 0 ∨ op = 1 ∨ op = 2 ∨ op = 3 ∨ op = 4 ∨ reservedOpOk op = true := by
  decide

theorem exists_encode_command (w : CmdWord) : ∃ i, wellFormed i = true ∧ encode i = some (.command w) := by
  rw [← commandWord_fields w]
  rcases op_cases (cmdOp w) with h | h | h | h | h | h
  · rw [h]; exact ⟨.powerQuery _ _ _ _, rfl, rfl⟩
  · rw [h]; exact ⟨.powerOff _ _ _ _, rfl, rfl⟩
  · rw [h]; exact ⟨.powerOn _ _ _ _, rfl, rfl⟩
  · rw [h]; exact ⟨.setSpeed _ _ _ _, rfl, rfl⟩
  · rw [h]; exact ⟨.setFg1 _ _ _ _, rfl, rfl⟩
  · exact ⟨.reservedOp _ _ _ _ _, h, rfl⟩

/-- Settles O1: the decoder reads back each field the encoder placed; a well-formed PP has no name of its own and a
well-formed RESERVED_OP no command's code, so the decoder chooses the same constructor. -/
theorem decodeOfEncodeIsIdentity : Obligations.DecodeOfEncodeIsIdentity :=
  fun _ hwf => ⟨fun _ h => congrArg Except.ok (decodeControl_of_encode hwf h),
    fun _ h => congrArg Except.ok (decodeCommand_of_encode hwf h)⟩

/-- Settles O2: a word is the encoding of some well-formed instruction, and that is the one it decodes to. -/
theorem encodeOfDecodeIsIdentity : Obligations.EncodeOfDecodeIsIdentity := by
  refine ⟨fun w => ?_, fun w => ?_⟩
  · obtain ⟨i, hwf, h⟩ := exists_encode_control w
    rw [decodeControl_of_encode hwf h]; exact ⟨hwf, h⟩
  · obtain ⟨i, hwf, h⟩ := exists_encode_command w
    rw [decodeCommand_of_encode hwf h]; exact ⟨hwf, h⟩

/-- Settles O3: the decoder computes on each of the twelve fixed words. -/
theorem specWordsDecode : Obligations.SpecWordsDecode := by
  unfold Obligations.SpecWordsDecode
  decide

end Sys2Proof

namespace Sys2Proof.Machine

/-! ## What a decoded word does (R95, R97, R166) -/

/-- The nine line bits of a data-byte word are its start bit and its byte (R62). -/
theorem dbStart_append_dbData (w : Word) : dbStart w ++ dbData w = w.extractLsb' 0 9 :=
  BitVec.extractLsb'_append_extractLsb'_eq_extractLsb' rfl

/-- Executing the control word a word decodes to loads that word and starts its first bit (R95, R98 to R100). -/
theorem exec_decodeControl (w : Word) (s : State) : exec (decodeControl w) s = .next (shiftOut (loadWord w s)) := by
  rcases loadWord_cases w s with ⟨hpp, e⟩ | ⟨hdb, e⟩ <;> rw [e]
  · change _ = Host.Outcome.next (fetchPp (ppBits w) s)
    rw [← ppControl_fields hpp, decodeControl_ppControl, ppBits_ppControl]
    split_ifs with hones hzeros
    · rw [hones]; rfl
    · rw [hzeros]; rfl
    · rfl
  · rw [← dbStart_append_dbData]
    change _ = Host.Outcome.next (fetchData (dbStart w) (dbData w) (w.getLsbD 30) s)
    conv_lhs => rw [← dbControl_fields hdb, decodeControl_dbControl]
    cases w.getLsbD 30 <;> rfl

theorem execCmdWord_of_reserved {w : CmdWord} (h : reservedOpOk (cmdOp w) = true) (s : State) :
    execCmdWord w s = .next (reservedOp s) := by
  have hop : 5 ≤ (cmdOp w).toNat := of_decide_eq_true h
  unfold execCmdWord
  split
  case h_6 => rfl
  all_goals omega

/-- Executing the instruction a command word decodes to is EXEC_CMD of that word (R166). -/
theorem exec_decodeCommand (w : CmdWord) (s : State) : exec (decodeCommand w) s = execCmdWord w s := by
  rcases op_cases (cmdOp w) with h | h | h | h | h | h
  · rw [decodeCommand, execCmdWord, h]; rfl
  · rw [decodeCommand, execCmdWord, h]; rfl
  · rw [decodeCommand, execCmdWord, h]; rfl
  · rw [decodeCommand, execCmdWord, h]; rfl
  · rw [decodeCommand, execCmdWord, h]; rfl
  · rw [decodeCommand_of_reserved h, execCmdWord_of_reserved h]; rfl

/-- Settles O4: the engine's load reads bits 31, 30 and 15:0 of a word, and EXEC_CMD reads `op` and the operands in the
low 32 bits. -/
theorem reservedBitsAreIgnored : Obligations.ReservedBitsAreIgnored := by
  refine ⟨fun w v s hw hv hbits => ?_, fun w v s hw hv hfinal hbits => ?_, fun w v s hop hlow => ?_⟩
  · simp only [exec_decodeControl, loadWord, Config.ppBit, hw, hv, if_true, hbits]
  · simp only [exec_decodeControl, loadWord, Config.ppBit, Config.fbBit, hw, hv, Bool.false_eq_true, if_false, hfinal,
      hbits]
  · have hfield {start len : Nat} (h : start + len ≤ 32) : w.extractLsb' start len = v.extractLsb' start len := by
      rw [← BitVec.extractLsb'_extractLsb'_of_le h, hlow, BitVec.extractLsb'_extractLsb'_of_le h]
    have hop' : cmdOp w = cmdOp v := hop
    have haddress : cmdAddress w = cmdAddress v := hfield (by decide)
    have harg1 : cmdArg1 w = cmdArg1 v := hfield (by decide)
    have harg2 : cmdArg2 w = cmdArg2 v := hfield (by decide)
    simp only [exec_decodeCommand, execCmdWord, hop', haddress, harg1, harg2]

/-- Settles O49: RESERVED_OP is the response `ok` = 0 alone. -/
theorem reservedOpDoesNothing : Obligations.ReservedOpDoesNothing :=
  fun _ _ _ _ _ _ => rfl

/-! ## The line bits of a frame (R65, R130) -/

theorem bitsOf_append {n m : Nat} (v : BitVec n) (u : BitVec m) : bitsOf (v ++ u) = bitsOf v ++ bitsOf u := by
  have hlower : (bitsOf (v ++ u)).drop n = bitsOf u := by
    apply List.ext_getElem (by simp)
    intro i _ _
    simp [bitsOf, BitVec.getMsbD_append]
  rw [← List.take_append_drop n (bitsOf (v ++ u)), take_bitsOf_append, hlower]

theorem dbWord_toNat (b : Byte) : (dbWord b).toNat = b.toNat :=
  BitVec.toNat_setWidth_of_le (by decide)

theorem dbWord_eq (b : Byte) : dbWord b = 0#24 ++ b := by
  apply BitVec.eq_of_toNat_eq
  rw [dbWord_toNat, BitVec.toNat_append]
  exact (Nat.zero_or _).symm

theorem dbfWord_eq (b : Byte) : dbfWord b = 0x400000#24 ++ b := by
  apply BitVec.eq_of_toNat_eq
  rw [show dbfWord b = 0x40000000 ||| dbWord b from rfl, BitVec.toNat_or, dbWord_toNat, BitVec.toNat_append]
  rfl

/-- The scheduler's data-byte words are the encoder's with the ignored bits and the start bit clear (R62). -/
theorem dbWord_eq_dbControl (b : Byte) : dbWord b = dbControl false 0 0 b := by
  rw [dbWord_eq, dbControl_eq]; rfl

theorem dbfWord_eq_dbControl (b : Byte) : dbfWord b = dbControl true 0 0 b := by
  rw [dbfWord_eq, dbControl_eq]; rfl

/-- A data-byte word stands for its start bit and byte, and for the end bit where it is final (R99, R100). -/
theorem emitWord_dbControl (f : Bool) (r : BitVec 21) (s : BitVec 1) (d : Byte) :
    emitWord (dbControl f r s d) = bitsOf s ++ bitsOf d ++ (if f then [true] else []) := by
  have hbits : bitsOf ((dbControl f r s d).extractLsb' 0 9) = bitsOf s ++ bitsOf d := by
    rw [← dbStart_append_dbData, dbStart_dbControl, dbData_dbControl]
    exact bitsOf_append s d
  simp only [emitWord, Config.ppBit, Config.fbBit, getLsbD_dbControl_marker, getLsbD_dbControl_final,
    Bool.false_eq_true, if_false, hbits]

theorem emitWord_dbWord (b : Byte) : emitWord (dbWord b) = wireByte b := by
  rw [dbWord_eq_dbControl, emitWord_dbControl]; exact List.append_nil _

theorem emitWord_dbfWord (b : Byte) : emitWord (dbfWord b) = wireByte b ++ [true] := by
  rw [dbfWord_eq_dbControl, emitWord_dbControl]; rfl

theorem emitWord_preamble : emitWord (ppWord Config.preambleBits) = List.replicate 16 true := by decide

/-- The line bits of a frame are the packet on the wire, the checksum its last byte (R65, R130). -/
theorem lineBits_frame (p : List Byte) : lineBits (frame p) = wirePacket (p ++ [checksum p]) := by
  have hbytes : lineBits (p.map dbWord) = p.flatMap wireByte := by
    simp [lineBits, List.flatMap_map, emitWord_dbWord]
  rw [frame, lineBits_cons, lineBits_append, hbytes, emitWord_preamble]
  simp [wirePacket, emitWord_dbfWord]

/-! ## The packet layouts (R66) -/

/-- An instruction with line bits is a SEND of two to four bytes, and its line bits are those bytes and their
checksum. -/
theorem exists_send_of_encode_wire {i : Instr} {bits : List Bool} (h : encode i = some (.wire bits)) :
    ∃ p : List Byte, 2 ≤ p.length ∧ p.length ≤ 4 ∧ bits = wirePacket (p ++ [checksum p]) ∧
      ∀ s, exec i s = .next (send p s) := by
  cases i with
  | pktSpeedShort a d v =>
    cases h
    exact ⟨[shortAddrByte a, 0x3F, speedByte d v], by simp, by simp, by simp [checksum], fun _ => rfl⟩
  | pktSpeedLong a d v =>
    cases h
    exact ⟨[longAddrHigh a, longAddrLow a, 0x3F, speedByte d v], by simp, by simp, by simp [checksum], fun _ => rfl⟩
  | pktFg1Short a f =>
    cases h
    exact ⟨[shortAddrByte a, functionByte f], by simp, by simp, by simp [checksum], fun _ => rfl⟩
  | pktFg1Long a f =>
    cases h
    exact ⟨[longAddrHigh a, longAddrLow a, functionByte f], by simp, by simp, by simp [checksum], fun _ => rfl⟩
  | pktIdle => cases h; exact ⟨[0xFF, 0x00], by simp, by simp, by simp [checksum], fun _ => rfl⟩
  | _ => cases h

/-- Settles O5: the words are the frame of the layout's payload, which SEND takes whole or drops whole. -/
theorem wireLayoutsAreWhatIsEnqueued : Obligations.WireLayoutsAreWhatIsEnqueued := by
  intro i bits h
  obtain ⟨p, h2, h4, rfl, hexec⟩ := exists_send_of_encode_wire h
  refine ⟨frame p, by simp; omega, by simp; omega, lineBits_frame p, fun s => ?_⟩
  rw [hexec, frame_length]
  rcases send_cases p s with ⟨hlong, _⟩ | ⟨_, hfull, e⟩ | ⟨_, hfits, e⟩
  · omega
  · exact ⟨fun hfits => by omega, fun _ => by rw [e]⟩
  · exact ⟨fun _ => by rw [e], fun hfull => by omega⟩

end Sys2Proof.Machine

/-! # Proofs: the engine (spec/40_engine.md)

One equation for each case of ENGINE_CLOCK and of NEXT_BIT, and from them what a fetch does, the waveform of a bit and the
liveness of the line. Then the producers, which leave the engine's registers alone, and that every step completes. -/

namespace Sys2Proof.Machine

/-! ## Run control and the queue (R90 to R93) -/

/-- Settles O9: START and STOP are one write of RUN each. -/
theorem startAndStopWriteRunOnly : Obligations.StartAndStopWriteRunOnly :=
  fun _ => ⟨rfl, rfl⟩

/-- Settles O10, by whether Q has room. -/
theorem pushAppendsOrLatchesOverflow : Obligations.PushAppendsOrLatchesOverflow :=
  fun _ _ => ⟨fun h => congrArg _ (qPush_of_room h), fun h => congrArg _ (qPush_of_full h)⟩

/-- Settles O11: the pushes of ENQUEUE in closed form, by induction on the list. -/
theorem enqueueAppendsWhatFits : Obligations.EnqueueAppendsWhatFits :=
  fun ws s => congrArg _ (enqueue_eq ws s)

/-! ## SHIFT_OUT and LOAD_WORD (R96, R97) -/

/-- Settles O14: only NBITS depends on whether a bit is left. -/
theorem shiftOutStartsTheTopBit : Obligations.ShiftOutStartsTheTopBit := by
  intro s
  have htop : s.sr.getLsbD 15 = s.sr.msb := s.sr.msb_eq_getLsbD_last.symm
  rw [htop]
  exact ⟨fun h => congrArg _ (shiftOut_of_bits h), fun _ => ⟨nbitsPred s, rfl⟩⟩

/-- Settles O15: bit 31 chooses the load. -/
theorem loadWordByFormat : Obligations.LoadWordByFormat := by
  intro w s
  rcases loadWord_cases w s with ⟨hpp, e⟩ | ⟨hdb, e⟩
  · exact ⟨fun _ => congrArg _ e, fun h => absurd (hpp.symm.trans h) (by decide)⟩
  · exact ⟨fun h => absurd (hdb.symm.trans h) (by decide), fun _ => congrArg _ e⟩

/-- The fetch of a preamble/padding word starts its bit 15 and leaves the other fifteen (R98). -/
theorem fetchPp_eq (bits : BitVec 16) (s : State) : fetchPp bits s = { s with
    st := .emitPreamblePadding, sr := bits <<< 1, nbits := 15, finalMark := false, cur := bits.getLsbD 15 } := by
  have htop : bits.msb = bits.getLsbD 15 := bits.msb_eq_getLsbD_last
  rw [fetchPp, shiftOut, nbitsPred_loadPp, loadPp_sr, htop]
  rfl

/-- The fetch of a data-byte word starts its start bit and leaves the byte (R99, R100). -/
theorem fetchData_eq (start : BitVec 1) (data : Byte) (fin : Bool) (s : State) : fetchData start data fin s = { s with
    st := .emitStartAndByte, sr := data ++ 0#8, nbits := 8, finalMark := fin, cur := start.getLsbD 0 } := by
  have hshift : (start ++ data ++ 0#7 : BitVec 16) <<< 1 = data ++ 0#8 := by
    apply BitVec.eq_of_getLsbD_eq
    intro i hi
    simp only [BitVec.getLsbD_shiftLeft, BitVec.getLsbD_append]
    by_cases hlow : i < 8
    · simp [hlow, show i - 1 < 7 by omega]
    · simp [hlow, hi, show ¬ i - 1 < 7 by omega, show i - 1 - 7 = i - 8 by omega, show i - 8 < 8 by omega,
        show ¬ i < 1 by omega]
  have htop : (start ++ data ++ 0#7 : BitVec 16).msb = start.getLsbD 0 := by
    rw [BitVec.msb_eq_getLsbD_last, BitVec.getLsbD_append, BitVec.getLsbD_append]
    rfl
  rw [fetchData, shiftOut, nbitsPred_loadData, loadData_sr, hshift, htop]
  rfl

/-- Settles O16: a control word is one of two fetches, and the two named words are fetches of all ones and all zeros. -/
theorem controlWordsStartTheirFirstBit : Obligations.ControlWordsStartTheirFirstBit :=
  fun s _ _ b start data => ⟨congrArg _ (fetchPp_eq b s), congrArg _ (fetchPp_eq 0xFFFF s), congrArg _ (fetchPp_eq 0 s),
    congrArg _ (fetchData_eq start data false s), congrArg _ (fetchData_eq start data true s)⟩

/-! ## NEXT_BIT, one equation a case (R95) -/

section NextBit

variable {s : State}

theorem nextBit_of_bits (hbits : s.nbits ≠ 0) : nextBit s = shiftOut s :=
  if_pos hbits

theorem nextBit_of_endBit (h0 : s.nbits = 0) (hst : s.st = .emitStartAndByte) (hmark : s.finalMark = true) :
    nextBit s = { s with st := .emitEndBit, cur := true, finalMark := false } := by
  simp [nextBit, h0, hst, hmark]

theorem nextBit_of_word {w : Word} {rest : List Word} (h0 : s.nbits = 0)
    (hend : ¬ (s.st = .emitStartAndByte ∧ s.finalMark = true)) (hq : s.q = w :: rest) :
    nextBit s = shiftOut (loadWord w { s with q := rest }) := by
  simp only [nextBit, h0, hend, hq, ne_eq, not_true_eq_false, if_false]

theorem nextBit_of_underrun (h0 : s.nbits = 0) (hend : ¬ (s.st = .emitStartAndByte ∧ s.finalMark = true))
    (hq : s.q = []) : nextBit s = { s with st := .awaitWord, cur := false } := by
  simp only [nextBit, h0, hend, hq, ne_eq, not_true_eq_false, if_false]

end NextBit

/-- Settles O13: the four branches of NEXT_BIT. -/
theorem nextBitCases : Obligations.NextBitCases :=
  fun s => ⟨fun hbits => ⟨shiftOut s, rfl, congrArg _ (nextBit_of_bits hbits)⟩,
    fun h0 hst hmark => congrArg _ (nextBit_of_endBit h0 hst hmark),
    fun h0 hend _ _ hq => ⟨_, _, rfl, rfl, congrArg _ (nextBit_of_word h0 hend hq)⟩,
    fun h0 hend hq => congrArg _ (nextBit_of_underrun h0 hend hq)⟩

/-! ## The bits repeated NEXT_BITs choose (R98 to R102, R105, R107) -/

theorem nextBit_nbits_le {s : State} (h16 : s.nbits.toNat ≤ 16) : (nextBit s).nbits.toNat ≤ 16 := by
  rcases nextBit_cases s with ⟨hbits, e⟩ | ⟨_, _, _, e⟩ | ⟨w, rest, _, _, _, e⟩ | ⟨_, _, _, e⟩ <;> rw [e]
  · rw [shiftOut_of_bits hbits]
    show (s.nbits - 1).toNat ≤ 16
    bv_omega
  · exact h16
  · exact (fetch_wordOk w _).bits
  · exact h16

theorem nextBits_succ (n : Nat) (s : State) : nextBits (n + 1) s = (nextBit s).cur :: nextBits n (nextBit s) := rfl

/-- A core that owes nothing chooses `0` bits for ever (R101). -/
theorem nextBits_of_residue_nil {s : State} (k : Nat) (h16 : s.nbits.toNat ≤ 16) (hnil : s.residue = []) :
    nextBits k s = List.replicate k false := by
  induction k generalizing s with
  | zero => rfl
  | succ k ih =>
    obtain ⟨hzero, hnone, _⟩ := nextBit_of_residue_nil h16 hnil
    rw [nextBits_succ, hzero, ih (nextBit_nbits_le h16) hnone, List.replicate_succ]

/-- Settles O17, by induction on the bits owed: each NEXT_BIT takes the first. -/
theorem lineCarriesExactlyWhatIsOwed : Obligations.LineCarriesExactlyWhatIsOwed := by
  intro s k h16
  induction howed : s.residue generalizing s with
  | nil => simpa using nextBits_of_residue_nil k h16 howed
  | cons b rest ih =>
    obtain ⟨hfirst, hrest⟩ := nextBit_of_residue_cons h16 howed
    rw [List.length_cons, Nat.add_right_comm, nextBits_succ, hfirst, ih _ (nextBit_nbits_le h16) hrest,
      List.cons_append]

/-! ## ENGINE_CLOCK, one equation a case (R94) -/

section EngineClock

variable {s : State}

theorem engineClock_of_stopped (hstop : s.run = false) : engineClock s = s :=
  if_pos hstop

theorem engineClock_of_counting (hrun : s.run = true) (h2 : 2 ≤ s.hc.toNat) :
    engineClock s = { s with hc := s.hc - 1 } := by
  simp [engineClock, hrun, h2]

theorem engineClock_of_firstHalfEnded (hrun : s.run = true) (h1 : s.hc = 1) (hphase : s.phase = false) :
    engineClock s = beginSecondHalf s := by
  simp [engineClock, hrun, h1, hphase]

theorem beginSecondHalf_eq (s : State) :
    beginSecondHalf s = { s with phase := true, line := !s.line, hc := if s.cur then 58 else 100 } := by
  rw [beginSecondHalf, half_eq]

/-- A bit begins: NEXT_BIT chooses it, and the line inverts for its first half-cycle. -/
theorem engineClock_beginsBit (hrun : s.run = true) (hend : s.BitEnded) : engineClock s =
    { nextBit s with phase := false, line := !s.line, hc := if (nextBit s).cur then 58 else 100 } := by
  rw [engineClock_of_bitEnded hrun hend, beginBit, nextBit_line, half_eq]

end EngineClock

/-- Settles O12: the four branches of ENGINE_CLOCK. -/
theorem engineClockCases : Obligations.EngineClockCases :=
  fun s => ⟨fun hstop => congrArg _ (engineClock_of_stopped hstop),
    fun hrun h2 => congrArg _ (engineClock_of_counting hrun h2),
    fun hrun h1 hphase => congrArg _ ((engineClock_of_firstHalfEnded hrun h1 hphase).trans (beginSecondHalf_eq s)),
    fun hrun hend => ⟨nextBit s, rfl, congrArg _ (engineClock_beginsBit hrun hend)⟩⟩

/-- Settles O20: NEXT_BIT takes its underrun branch, and the bit it chooses begins. -/
theorem underrunBeginsAZeroBit : Obligations.UnderrunBeginsAZeroBit := by
  intro s hrun ⟨hend, h0, hnoEnd⟩ hq
  have hclock := engineClock_beginsBit hrun hend
  rw [nextBit_of_underrun h0 hnoEnd hq] at hclock
  exact congrArg _ hclock

/-! ## The clock step (R149) -/

theorem step_of_port_nil {s : State} (hport : s.port = []) : step s = .next (clockStep s) := by
  simp only [step, hport]; rfl

theorem step_of_clockNext {s : State} (h : s.ClockNext) :
    step s = .next (clockStep { s with port := s.port.tail }) := by
  rcases clockNext_iff.mp h with hport | ⟨rest, hport⟩
  · have hsame : ({ s with port := s.port.tail } : State) = s := by rw [hport, List.tail_nil, ← hport]
    rw [hsame, step_of_port_nil hport]
  · simp only [step, hport]; rfl

/-- Settles O7: at a word boundary the engine's half of the clock step is the fetch of the head of Q, which is what the
decoded word does, and the start of its first bit. -/
theorem clockStepFetchesTheControlWord : Obligations.ClockStepFetchesTheControlWord := by
  intro s w rest hclock hrun ⟨hend, h0, hnoEnd⟩ hq
  refine ⟨_, exec_decodeControl w _, ?_⟩
  have hengine := engineClock_beginsBit (s := { s with port := s.port.tail }) hrun hend
  rw [nextBit_of_word (s := { s with port := s.port.tail }) h0 hnoEnd hq] at hengine
  rw [step_of_clockNext hclock, clockStep, hengine]
  rfl

/-! ## The waveform of one bit (R103) -/

theorem repeatExec_succ {i : Instr} {s t : State} (n : Nat) (h : exec i s = .next t) :
    repeatExec i (n + 1) s = repeatExec i n t := by
  simp only [repeatExec, h]

theorem repeatExec_add {i : Instr} {m : Nat} {s t : State} (n : Nat) (h : repeatExec i m s = .next t) :
    repeatExec i (m + n) s = repeatExec i n t := by
  induction m generalizing s with
  | zero => cases h; rw [Nat.zero_add]
  | succ m ih =>
    cases hexec : exec i s with
    | next u =>
      rw [repeatExec_succ m hexec] at h
      rw [Nat.add_right_comm, repeatExec_succ _ hexec, ih h]
    | fault r => simp [repeatExec, hexec] at h
    | refused r => simp [repeatExec, hexec] at h

/-- Inside a half-cycle a running engine only counts (R94). -/
theorem repeatExec_engineClock_counts {s : State} (hrun : s.run = true) {j : Nat} (hj : j < s.hc.toNat) :
    repeatExec .engineClock j s = .next { s with hc := BitVec.ofNat 7 (s.hc.toNat - j) } := by
  induction j generalizing s with
  | zero => simp [repeatExec]
  | succ j ih =>
    have hpred : (s.hc - 1).toNat = s.hc.toNat - 1 := by bv_omega
    rw [repeatExec_succ j (congrArg _ (engineClock_of_counting hrun (by omega))),
      ih (s := { s with hc := s.hc - 1 }) hrun (by rw [hpred]; omega), hpred, Nat.sub_sub, Nat.add_comm 1 j]

/-- Settles O18: the first half-cycle counts down to its last clock, the next clock starts the second, and that one
counts down in turn. -/
theorem oneBitIsTwoEqualHalfCycles : Obligations.OneBitIsTwoEqualHalfCycles := by
  intro s h hrun hphase hlen hhc j hj
  have hpos : 1 ≤ h := by omega
  refine ⟨by rw [repeatExec_engineClock_counts hrun (by omega), hhc], ?_⟩
  have hfirst : repeatExec .engineClock h s = .next (beginSecondHalf s) := by
    have hlast := repeatExec_engineClock_counts hrun (j := h - 1) (by omega)
    rw [hhc, Nat.sub_sub_self hpos] at hlast
    rw [← Nat.sub_add_cancel hpos, repeatExec_add 1 hlast]
    exact congrArg _ (engineClock_of_firstHalfEnded (s := { s with hc := 1 }) hrun rfl hphase)
  have hfull : (beginSecondHalf s).hc.toNat = h := by
    rw [hlen, beginSecondHalf_hc, half_eq]; cases s.cur <;> rfl
  rw [repeatExec_add j hfirst, repeatExec_engineClock_counts (s := beginSecondHalf s) hrun (by rwa [hfull]), hfull]
  rfl

/-! ## The line never stalls (R104) -/

/-- A half-cycle that has run out: the next engine clock inverts the line. -/
theorem engineClock_line_of_halfEnded {s : State} (hrun : s.run = true) (h1 : s.hc.toNat ≤ 1) :
    (engineClock s).line = !s.line := by
  rcases engineClock_cases s with ⟨hstop, _⟩ | ⟨_, h2, _⟩ | ⟨_, _, _, e⟩ | ⟨_, _, e⟩
  · simp [hrun] at hstop
  · omega
  · rw [e, beginSecondHalf_line]
  · rw [e, beginBit_line, nextBit_line]

/-- The timer's half of a clock step leaves RUN, HC, LINE and the port alone. -/
theorem clockStep_eq_engineClock (s : State) : (clockStep s).run = (engineClock s).run ∧
    (clockStep s).hc = (engineClock s).hc ∧ (clockStep s).line = (engineClock s).line ∧
    (clockStep s).port = (engineClock s).port := by
  obtain ⟨_, _, _, _, _, e, _⟩ := timerClock_frame (engineClock s)
  rw [clockStep, e]
  exact ⟨rfl, rfl, rfl, rfl⟩

theorem core_run_succ {s t : State} (n : Nat) (h : step s = .next t) : core.run (n + 1) s = core.run n t := by
  simp only [Host.Core.run, core, h]

theorem clockStep_line_of_halfEnded {s : State} (hrun : s.run = true) (h1 : s.hc.toNat ≤ 1) :
    (clockStep s).line = !s.line := by
  obtain ⟨_, _, hline, _⟩ := clockStep_eq_engineClock s
  rw [hline, engineClock_line_of_halfEnded hrun h1]

/-- With `k + 1` clocks or fewer left of the half-cycle, the line inverts within `k + 1` steps. -/
theorem line_inverts_within (k : Nat) {s : State} (hrun : s.run = true) (hport : s.port = [])
    (hhc : s.hc.toNat ≤ k + 1) :
    ∃ n t, 1 ≤ n ∧ n ≤ k + 1 ∧ core.run n s = .next t ∧ t.line = !s.line := by
  have hstep := step_of_port_nil hport
  induction k generalizing s with
  | zero => exact ⟨1, _, le_rfl, le_rfl, core_run_succ 0 hstep, clockStep_line_of_halfEnded hrun hhc⟩
  | succ k ih =>
    by_cases h1 : s.hc.toNat ≤ 1
    · exact ⟨1, _, le_rfl, by omega, core_run_succ 0 hstep, clockStep_line_of_halfEnded hrun h1⟩
    · obtain ⟨hrun', hhc', hline', hport'⟩ := clockStep_eq_engineClock s
      rw [engineClock_of_counting hrun (by omega)] at hrun' hhc' hline' hport'
      have hempty : (clockStep s).port = [] := hport'.trans hport
      obtain ⟨n, t, hpos, hle, hnext, hline⟩ :=
        ih (hrun'.trans hrun) hempty (by rw [hhc']; bv_omega) (step_of_port_nil hempty)
      exact ⟨n + 1, t, by omega, by omega, (core_run_succ n hstep).trans hnext, by rw [hline, hline']⟩

/-- Settles O19: no half-cycle is longer than 100 clocks. -/
theorem runningLineInvertsWithinAHundredClocks : Obligations.RunningLineInvertsWithinAHundredClocks :=
  fun s hinv hrun hport => line_inverts_within 99 hrun hport (hinv.engine.count.trans (half_le s.cur))

/-! ## Producers leave the engine's registers alone (R106) -/

/-- It serves for every update of other fields too: the engine's registers are then the same by definition. -/
theorem SameEngine.refl (s : State) : SameEngine s s := ⟨rfl, rfl, rfl, rfl, rfl, rfl, rfl, rfl⟩

theorem answer_sameEngine (r : Ret) (s : State) : SameEngine s (answer r s) :=
  SameEngine.refl s

theorem enqueue_sameEngine (ws : List Word) (s : State) : SameEngine s (enqueue ws s) := by
  rw [enqueue_eq]; exact SameEngine.refl s

theorem send_sameEngine (p : List Byte) (s : State) : SameEngine s (send p s) := by
  obtain ⟨_, _, _, e, _⟩ := send_frame p s
  rw [e]; exact SameEngine.refl s

theorem tick_sameEngine (s : State) : SameEngine s (tick s) := by
  obtain ⟨_, _, _, _, e, _⟩ := tick_frame s
  rw [e]; exact SameEngine.refl s

theorem timerClock_sameEngine (s : State) : SameEngine s (timerClock s) := by
  obtain ⟨_, _, _, _, _, e, _⟩ := timerClock_frame s
  rw [e]; exact SameEngine.refl s

theorem SameEngine.of_registryCommand {s t : State} (h : ∃ g r, t = { s with reg := g, ret := r }) :
    SameEngine s t := by
  obtain ⟨g, r, rfl⟩ := h
  exact SameEngine.refl s

theorem execCmdWord_sameEngine {w : CmdWord} {s t : State} (h : execCmdWord w s = .next t) : SameEngine s t := by
  rcases execCmdWord_frame h with rfl | rfl | hregistry
  · exact SameEngine.refl s
  · exact SameEngine.refl s
  · exact .of_registryCommand hregistry

/-- Settles O21, one line for each kind of producer. -/
theorem producersLeaveTheEngineAlone : Obligations.ProducersLeaveTheEngineAlone := by
  intro i s t hproducer hexec
  cases i with
  | pp | db | dbf | preamble | pad | engineClock | nextBit | shiftOut | loadWord | clockStep => cases hproducer
  | powerQuery | powerOff | powerOn | reservedOp | start | stop => cases hexec; exact SameEngine.refl s
  | setSpeed r a d v => exact .of_registryCommand (setSpeed_frame hexec)
  | setFg1 r a i x => exact .of_registryCommand (setFg1_frame hexec)
  | execCmd w => exact execCmdWord_sameEngine hexec
  | pktSpeedShort | pktSpeedLong | pktFg1Short | pktFg1Long | pktIdle | send => cases hexec; exact send_sameEngine _ s
  | qPush w => cases hexec; exact enqueue_sameEngine [w] s
  | enqueue ws => cases hexec; exact enqueue_sameEngine ws s
  | tick => cases hexec; exact tick_sameEngine s
  | timerClock => cases hexec; exact timerClock_sameEngine s
  | validAddr | validSpeed | validDir | validFn | validState | addrBytes | encSpeed | fnMask | encFg1 | checksum | frame
  | regFind => cases hexec; exact answer_sameEngine _ s

/-! ## Every step completes (R104, R167, R177) -/

/-- A number for each key; those of a valid address are 2 to 20479. -/
def keyNumber (k : Cls × BitVec 14) : Nat := 2 * k.2.toNat + k.1.code.toNat

theorem code_injective : Function.Injective Cls.code
  | .speed, .speed, _ => rfl
  | .fg1, .fg1, _ => rfl

theorem keyNumber_injective : Function.Injective keyNumber := by
  rintro ⟨c, a⟩ ⟨c', a'⟩ h
  simp only [keyNumber] at h
  have hlt := c.code.isLt
  have hlt' := c'.code.isLt
  have haddr : a = a' := BitVec.eq_of_toNat_eq (by omega)
  have hcls : c = c' := code_injective (BitVec.eq_of_toNat_eq (by omega))
  rw [haddr, hcls]

theorem keyNumber_mem_range {e : Entry} (h : e.Ok) : keyNumber e.key ∈ List.range' 2 20478 := by
  obtain ⟨hmin, hmax, _⟩ : 1 ≤ e.addr.toNat ∧ e.addr.toNat ≤ 10239 ∧ _ := h
  have hlt := e.cls.code.isLt
  simp only [List.mem_range'_1, keyNumber, Entry.key]
  omega

/-- A registry in canonical form has no more entries than there are keys (D10). -/
theorem length_le_of_nodup_keys {reg : List Entry} (hkeys : (reg.map Entry.key).Nodup) (hok : ∀ e ∈ reg, e.Ok) :
    reg.length ≤ 20478 := by
  have hsub : reg.map (keyNumber ∘ Entry.key) ⊆ List.range' 2 20478 := by
    intro n hn
    obtain ⟨e, he, rfl⟩ := List.mem_map.mp hn
    exact keyNumber_mem_range (hok e he)
  have hnodup : (reg.map (keyNumber ∘ Entry.key)).Nodup := by
    rw [← List.map_map]; exact hkeys.map keyNumber_injective
  have hle := (List.subperm_of_subset hnodup hsub).length_le
  rwa [List.length_map, List.length_range'] at hle

/-- There is a slot for a fresh entry of a key that is absent: with the entry the keys are still distinct, so the
registry held fewer than all of them. -/
theorem regUpdate_completes {c : Cls} {a : Addr} {f : Byte → Byte} {p : List Byte} {s : State} (h : RegOk s.reg)
    (ha : a.toNat ≤ 10239) (hfresh : (freshEntry c a p).Ok) : ∃ t, regUpdate c a f p s = .next t := by
  rcases regUpdate_cases c a f p s with ⟨k, _, e⟩ | ⟨_, _, e⟩ | ⟨hnone, hfull, _⟩
  · exact ⟨_, e⟩
  · exact ⟨_, e⟩
  · have hkeys : ((freshEntry c a p :: s.reg).map Entry.key).Nodup :=
      List.nodup_cons.mpr ⟨freshEntry_key_absent ha hnone, h.keys⟩
    have hle := length_le_of_nodup_keys hkeys (List.forall_mem_cons.mpr ⟨hfresh, h.entries⟩)
    rw [List.length_cons] at hle
    omega

theorem setSpeed_completes {s : State} (h : RegOk s.reg) (a : Addr) (d v : Byte) : ∃ t, setSpeed a d v s = .next t := by
  rcases setSpeed_cases a d v s with ⟨_, e⟩ | ⟨hvalid, e⟩ <;> rw [e]
  · exact ⟨_, rfl⟩
  · simp only [Bool.and_eq_true] at hvalid
    obtain ⟨hmin, hmax⟩ := validAddr_iff.mp hvalid.1.1
    exact regUpdate_completes h hmax (freshEntry_ok_speed hmin hmax)

theorem setFg1_completes {s : State} (h : RegOk s.reg) (a : Addr) (i x : Byte) : ∃ t, setFg1 a i x s = .next t := by
  rcases setFg1_cases a i x s with ⟨_, e⟩ | ⟨hvalid, e⟩ <;> rw [e]
  · exact ⟨_, rfl⟩
  · simp only [Bool.and_eq_true] at hvalid
    obtain ⟨hmin, hmax⟩ := validAddr_iff.mp hvalid.1.1
    exact regUpdate_completes h hmax (freshEntry_ok_fg1 hmin hmax (validFn_iff.mp hvalid.1.2))

/-- Every command completes where the registry is in canonical form (R166, R167). -/
theorem execCmdWord_completes {s : State} (h : RegOk s.reg) (w : CmdWord) : ∃ t, execCmdWord w s = .next t := by
  unfold execCmdWord
  split
  · exact ⟨_, rfl⟩
  · exact ⟨_, rfl⟩
  · exact ⟨_, rfl⟩
  · exact setSpeed_completes h _ _ _
  · exact setFg1_completes h _ _ _
  · exact ⟨_, rfl⟩

/-- Settles O59, by the kinds of step: only a command could be refused, and under the invariant none is. -/
theorem everyStepCompletes : Obligations.EveryStepCompletes := by
  intro s h
  unfold step
  split
  · exact ⟨_, rfl⟩
  · exact ⟨_, rfl⟩
  next w rest _ =>
    rw [exec_decodeCommand]
    exact execCmdWord_completes (s := { s with port := rest }) h.registry w
  · exact ⟨_, rfl⟩
  · exact ⟨_, rfl⟩
  · exact ⟨_, rfl⟩

end Sys2Proof.Machine

/-! # Proofs: the encoder (spec/41_encoder.md)

An encoder function returns its value and changes nothing else, so a statement about one is a statement about the pure
function: the range a check answers, the bytes of an address, a speed or a function, the checksum and the frame. -/

namespace Sys2Proof.Machine

/-! ## Two runs that return equal values (R132) -/

/-- What an encoder function returned can be read back: equal outcomes return equal values. -/
theorem answer_next_inj {r r' : Ret} {s : State}
    (h : (.next (answer r s) : Host.Outcome State Fault Refusal) = .next (answer r' s)) : r = r' := by
  simpa using congrArg State.ret (Host.Outcome.next.inj h)

/-! ## Validation (R120 to R124) -/

theorem validAddr_eq (a : Addr) : validAddr a = decide (1 ≤ a.toNat ∧ a.toNat ≤ 10239) :=
  (Bool.decide_and _ _).symm

theorem validDir_eq (d : Byte) : validDir d = decide (d.toNat = 1 ∨ d.toNat = 0) := by
  simp [validDir, BitVec.toNat_eq]

theorem validState_eq (x : Byte) : validState x = decide (x.toNat = 0 ∨ x.toNat = 1) := by
  simp [validState, BitVec.toNat_eq]

/-- Settles O23: VALID_SPEED and VALID_FN are written as their ranges; the other two checks are conjunctions or disjunctions
of Booleans. -/
theorem rangeChecksAnswerTheirRanges : Obligations.RangeChecksAnswerTheirRanges := by
  intro a v s
  rw [← validAddr_eq, ← validState_eq]
  exact ⟨rfl, rfl, rfl, rfl⟩

/-! ## Address framing (R125) -/

/-- The low part of an address, as both forms carry it. -/
theorem addrLowByte_eq (a : Addr) : a.extractLsb' 0 8 = BitVec.ofNat 8 a.toNat :=
  BitVec.eq_of_toNat_eq (by simp)

/-- The high part of a valid address has six bits, so OR-ing 0xC0 into it is adding it (R125). -/
theorem longAddrMark_or_high {a : Addr} (h : a.toNat ≤ 10239) :
    Config.longAddrMark ||| a.extractLsb' 8 8 = BitVec.ofNat 8 (0xC0 + a.toNat / 256) := by
  have hhigh : a.toNat / 256 < 2 ^ 6 := by omega
  have hor : 0xC0 + a.toNat / 256 = 0xC0 ||| a.toNat / 256 := Nat.two_pow_add_eq_or_of_lt hhigh 3
  have hmod : a.toNat / 256 % 256 = a.toNat / 256 := by omega
  apply BitVec.eq_of_toNat_eq
  simp [← hor, Nat.shiftRight_eq_div_pow, hmod]
  omega

theorem addrBytes_of_short {a : Addr} (h : a.toNat ≤ 127) : addrBytes a = [BitVec.ofNat 8 a.toNat] := by
  rw [addrBytes, if_pos h, addrLowByte_eq]

theorem addrBytes_of_long {a : Addr} (h1 : 128 ≤ a.toNat) (h2 : a.toNat ≤ 10239) :
    addrBytes a = [BitVec.ofNat 8 (0xC0 + a.toNat / 256), BitVec.ofNat 8 (a.toNat % 256)] := by
  have hlow : BitVec.ofNat 8 a.toNat = BitVec.ofNat 8 (a.toNat % 256) := BitVec.eq_of_toNat_eq (by simp)
  rw [addrBytes, if_neg (by simp; omega), longAddrMark_or_high h2, addrLowByte_eq, hlow]

/-- The number of bytes tells a short address from a long one, and the bytes of either give the address back. -/
theorem addrBytes_inj {a b : Addr} (ha : a.toNat ≤ 10239) (hb : b.toNat ≤ 10239) (h : addrBytes a = addrBytes b) :
    a = b := by
  apply BitVec.eq_of_toNat_eq
  rcases Nat.lt_or_ge a.toNat 128 with ha' | ha' <;> rcases Nat.lt_or_ge b.toNat 128 with hb' | hb'
  · rw [addrBytes_of_short (by omega), addrBytes_of_short (by omega)] at h
    simp [BitVec.toNat_eq] at h
    omega
  · rw [addrBytes_of_short (by omega), addrBytes_of_long hb' hb] at h
    simp at h
  · rw [addrBytes_of_long ha' ha, addrBytes_of_short (by omega)] at h
    simp at h
  · rw [addrBytes_of_long ha' ha, addrBytes_of_long hb' hb] at h
    simp [BitVec.toNat_eq] at h
    omega

/-- Settles O24, by the two ranges of the address. -/
theorem addressBytesByRange : Obligations.AddressBytesByRange := by
  refine ⟨fun a s _ h2 => ?_, fun a s h1 h2 => ⟨?_, by omega⟩, fun a b s _ ha _ hb h => ?_⟩
  · rw [← addrBytes_of_short h2]; rfl
  · rw [← addrBytes_of_long h1 h2]; rfl
  · exact addrBytes_inj ha hb (Ret.bytes.inj (answer_next_inj h))

/-! ## Speed bytes (R126) -/

/-- The mask of DS_BYTE changes no valid speed (R126). -/
theorem and_speedMask {v : Byte} (h : v.toNat ≤ 127) : v &&& 0x7F = v := by
  apply BitVec.eq_of_toNat_eq
  rw [BitVec.toNat_and]
  exact (Nat.and_two_pow_sub_one_eq_mod v.toNat 7).trans (Nat.mod_eq_of_lt (by omega))

theorem dsByte_forward {v : Byte} (h : v.toNat ≤ 127) : dsByte 1 v = BitVec.ofNat 8 (128 + v.toNat) := by
  have hor : 128 + v.toNat = 128 ||| v.toNat := Nat.two_pow_add_eq_or_of_lt (i := 7) (by omega) 1
  apply BitVec.eq_of_toNat_eq
  rw [dsByte, and_speedMask h]
  simp [← hor]
  omega

theorem dsByte_reverse {v : Byte} (h : v.toNat ≤ 127) : dsByte 0 v = v := by
  rw [dsByte, and_speedMask h]
  exact BitVec.zero_or

/-- Settles O25: the direction bit stands above the seven bits of the speed. -/
theorem directionCodesAndSpeedBytes : Obligations.DirectionCodesAndSpeedBytes := by
  refine ⟨fun d s => ?_, fun v s h => ⟨?_, ?_⟩⟩
  · rw [← validDir_eq]; rfl
  · rw [← dsByte_forward h]; rfl
  · conv_rhs => rw [← dsByte_reverse h]
    rfl

/-! ## Function masks and the function byte (R127, R128) -/

theorem fnIndex_cases {i : Byte} (h : i.toNat ≤ 4) : i = 0 ∨ i = 1 ∨ i = 2 ∨ i = 3 ∨ i = 4 := by bv_omega

/-- The position of the bit that is set in FN_MASK of a valid index: the headlight's stands above the other four (R127). -/
def fnBit (i : Byte) : Nat := if i = 0 then 4 else i.toNat - 1

theorem fnBit_lt {i : Byte} (h : i.toNat ≤ 4) : fnBit i < 5 := by
  unfold fnBit; split <;> omega

theorem fnBit_inj {i j : Byte} (hi : i.toNat ≤ 4) (hj : j.toNat ≤ 4) (h : fnBit i = fnBit j) : i = j := by
  unfold fnBit at h
  split at h <;> split at h <;> bv_omega

theorem fnMask_eq_shift {i : Byte} (h : i.toNat ≤ 4) : fnMask i = 1#8 <<< fnBit i := by
  rcases fnIndex_cases h with rfl | rfl | rfl | rfl | rfl <;> rfl

theorem fnMask_inj {i j : Byte} (hi : i.toNat ≤ 4) (hj : j.toNat ≤ 4) (h : fnMask i = fnMask j) : i = j := by
  have hbit : ∀ m < 5, ∀ n < 5, 1#8 <<< m = 1#8 <<< n → m = n := by decide
  rw [fnMask_eq_shift hi, fnMask_eq_shift hj] at h
  exact fnBit_inj hi hj (hbit _ (fnBit_lt hi) _ (fnBit_lt hj) h)

/-- The closed form R127 gives beside the table. -/
theorem fnMask_eq {i : Byte} (h : i.toNat ≤ 4) : fnMask i = if i = 0 then 0x10 else 1#8 <<< (i.toNat - 1) := by
  rw [fnMask_eq_shift h, fnBit]
  split <;> rfl

/-- Settles O26: the mask of a valid index is the single bit at its position. -/
theorem functionMaskIsTheTable : Obligations.FunctionMaskIsTheTable := by
  refine ⟨fun s => ⟨rfl, rfl, rfl, rfl, rfl⟩, fun i s h => ?_, fun i s h => ⟨fnBit i, fnBit_lt h, ?_⟩,
    fun i j s hi hj h => fnMask_inj hi hj (Ret.byte.inj (answer_next_inj h))⟩
  · rw [← fnMask_eq h]; rfl
  · rw [← fnMask_eq_shift h]; rfl

/-- Settles O27: the byte is the model's free value, which reads no state. -/
theorem functionMaskCompletesOutsideItsTable : Obligations.FunctionMaskCompletesOutsideItsTable :=
  fun i _ => ⟨fnMask i, fun _ => rfl⟩

/-- Settles O28: state 1 puts the mask of the table into 0x80, state 0 leaves 0x80 whatever the index. -/
theorem functionGroupInstructionByte : Obligations.FunctionGroupInstructionByte :=
  fun _ => ⟨rfl, rfl, rfl, rfl, rfl, fun _ _ => rfl⟩

/-! ## Checksum and framing (R129, R130) -/

/-- XOR is commutative and associative, so folding from either end gives the checksum (R131). -/
theorem checksum_eq_foldr (p : List Byte) : checksum p = p.foldr (fun b c => b ^^^ c) 0 :=
  List.foldl_eq_foldr

theorem checksum_perm {p p' : List Byte} (h : p.Perm p') : checksum p = checksum p' := by
  simp only [checksum_eq_foldr]
  exact h.foldr_eq _

theorem checksum_concat (p : List Byte) (b : Byte) : checksum (p ++ [b]) = checksum p ^^^ b := by
  simp [checksum]

theorem exec_checksum (p : List Byte) (s : State) : exec (.checksum p) s = .next (answer (.byte (checksum p)) s) := rfl

/-- Settles O29: the checksum is a fold of a commutative and associative operation in which every byte cancels itself. -/
theorem checksumIsTheXorOfAllBytes : Obligations.ChecksumIsTheXorOfAllBytes := by
  intro p s
  rw [← checksum_eq_foldr]
  refine ⟨rfl, fun p' h => ?_, ?_⟩
  · rw [exec_checksum, exec_checksum, checksum_perm h]
  · rw [exec_checksum, checksum_concat, BitVec.xor_self]
    rfl

/-- The words of a frame field by field, the ignored bits and the start bits clear (R130). -/
theorem frame_eq (p : List Byte) :
    frame p = 0x8000FFFF#32 :: (p.map (fun b => 0#24 ++ b) ++ [0x400000#24 ++ checksum p]) := by
  rw [frame, dbfWord_eq, funext dbWord_eq]
  rfl

/-- Settles O30: the words by the fields of R130, their line bits by those of a packet whose last byte is the checksum. -/
theorem frameIsTheWireFormat : Obligations.FrameIsTheWireFormat := by
  intro p s
  rw [← checksum_eq_foldr]
  exact ⟨frame p, rfl, frame_length p, frame_eq p, lineBits_frame p⟩

end Sys2Proof.Machine

/-! # Proofs: the registry (spec/42_registry_scheduler.md)

REG_FIND answers the first entry with a key. SET_SPEED and SET_FG1 of valid operands are one update of the registry each:
a patch where the key is found, an append where it is absent, a refusal where there is no slot. -/

namespace Sys2Proof.Machine

/-! ## Lookup (R140) -/

/-- REG_FIND answers `k` where entry `k` has the key and no earlier one has. -/
theorem regFind_eq_some_iff {c : Cls} {a : Addr} {reg : List Entry} {k : Nat} : regFind c a reg = some k ↔
    (∃ e, reg[k]? = some e ∧ e.cls = c ∧ e.addr.toNat = a.toNat) ∧
    ∀ j e, j < k → reg[j]? = some e → ¬ (e.cls = c ∧ e.addr.toNat = a.toNat) := by
  have haskey (e : Entry) : e.hasKey c a = true ↔ e.cls = c ∧ e.addr.toNat = a.toNat := by simp [Entry.hasKey]
  rw [regFind, List.findIdx?_eq_some_iff_getElem]
  constructor
  · rintro ⟨hk, hkey, hfirst⟩
    refine ⟨⟨reg[k], List.getElem?_eq_getElem hk, (haskey _).mp hkey⟩, fun j e hj hget h => ?_⟩
    obtain ⟨_, rfl⟩ := List.getElem?_eq_some_iff.mp hget
    exact hfirst j hj ((haskey _).mpr h)
  · rintro ⟨⟨e, hget, hkey⟩, hfirst⟩
    obtain ⟨hk, rfl⟩ := List.getElem?_eq_some_iff.mp hget
    exact ⟨hk, (haskey _).mpr hkey, fun j hj h =>
      hfirst j _ hj (List.getElem?_eq_getElem (hj.trans hk)) ((haskey _).mp h)⟩

theorem regFind_eq_none_iff {c : Cls} {a : Addr} {reg : List Entry} :
    regFind c a reg = none ↔ ∀ e ∈ reg, ¬ (e.cls = c ∧ e.addr.toNat = a.toNat) := by
  simp [regFind, Entry.hasKey]

/-- Settles O31: the index REG_FIND answers is the first with the key. -/
theorem regFindAnswersTheKeysIndex : Obligations.RegFindAnswersTheKeysIndex :=
  fun c a s => ⟨regFind c a s.reg, rfl, fun _ => regFind_eq_some_iff.mp, regFind_eq_none_iff.mp⟩

/-- Under distinct keys every entry is the one REG_FIND answers for its key (R21, R140). -/
theorem regFind_of_nodup_keys {c : Cls} {a : Addr} {reg : List Entry} {k : Nat} {e : Entry}
    (hkeys : (reg.map Entry.key).Nodup) (hget : reg[k]? = some e) (hcls : e.cls = c) (haddr : e.addr.toNat = a.toNat) :
    regFind c a reg = some k := by
  refine regFind_eq_some_iff.mpr ⟨⟨e, hget, hcls, haddr⟩, fun j f hj hgetj ⟨hcls', haddr'⟩ => ?_⟩
  have hk := (List.getElem?_eq_some_iff.mp hget).1
  have hsame : f.key = e.key := by
    rw [Entry.key, Entry.key, hcls, hcls', BitVec.eq_of_toNat_eq (haddr'.trans haddr.symm)]
  refine hj.ne ((List.getElem?_inj (by simpa using hj.trans hk) hkeys).mp ?_)
  simp [hget, hgetj, hsame]

/-! ## One update of the registry (R141, R142) -/

section Update

variable {c : Cls} {a : Addr} {f : Byte → Byte} {p : List Byte} {s : State}

theorem regUpdate_of_found {k : Nat} {e : Entry} (hfind : regFind c a s.reg = some k) (hget : s.reg[k]? = some e) :
    regUpdate c a f p s =
      .next { s with reg := s.reg.set k (e.patchLast f), ret := .resp (1#1 ++ BitVec.ofBool s.pwr) } := by
  simp only [regUpdate, hfind, List.modify_eq_set_getElem?, hget]
  rfl

theorem regUpdate_of_absent (hfind : regFind c a s.reg = none) (hroom : s.reg.length < 20478) :
    regUpdate c a f p s =
      .next { s with reg := s.reg ++ [freshEntry c a p], ret := .resp (1#1 ++ BitVec.ofBool s.pwr) } := by
  simp only [regUpdate, hfind]
  exact if_pos hroom

theorem regUpdate_of_full (hfind : regFind c a s.reg = none) (hfull : 20478 ≤ s.reg.length) :
    regUpdate c a f p s = .refused .registryFull := by
  simp only [regUpdate, hfind]
  exact if_neg (Nat.not_lt.mpr hfull)

end Update

theorem setSpeed_of_valid {a : Addr} {d v : Byte} (s : State) (ha1 : 1 ≤ a.toNat) (ha2 : a.toNat ≤ 10239)
    (hd : d.toNat ≤ 1) (hv : v.toNat ≤ 127) :
    setSpeed a d v s = regUpdate .speed a (fun _ => dsByte d v) (addrBytes a ++ encSpeed d v) s := by
  have hvalid : (validAddr a && validDir d && validSpeed v) = true := by
    simp [validAddr_iff, validDir_eq, validSpeed]
    omega
  rw [setSpeed, if_neg (by simp [hvalid])]

theorem setFg1_of_valid {a : Addr} {i x : Byte} (s : State) (ha1 : 1 ≤ a.toNat) (ha2 : a.toNat ≤ 10239)
    (hi : i.toNat ≤ 4) (hx : x.toNat ≤ 1) :
    setFg1 a i x s = regUpdate .fg1 a (fg1Patch i x) (addrBytes a ++ encFg1 i x) s := by
  have hvalid : (validAddr a && validFn i && validState x) = true := by
    simp [validAddr_iff, validFn_iff, validState_eq]
    omega
  rw [setFg1, if_neg (by simp [hvalid])]

/-- Settles O38: with valid operands both commands are an update, and an update of an absent key needs a slot. -/
theorem fullRegistryRefusesANewKey : Obligations.FullRegistryRefusesANewKey := by
  refine ⟨fun s r a d v ha1 ha2 hd hv hfull habsent => ?_, fun s r a i x ha1 ha2 hi hx hfull habsent => ?_⟩
  · exact (setSpeed_of_valid s ha1 ha2 hd hv).trans (regUpdate_of_full (regFind_eq_none_iff.mpr habsent) hfull)
  · exact (setFg1_of_valid s ha1 ha2 hi hx).trans (regUpdate_of_full (regFind_eq_none_iff.mpr habsent) hfull)

/-! ## Fresh entries -/

/-- Both forms of the address bytes of a valid address (R125). -/
theorem addrBytes_eq {a : Addr} (h : a.toNat ≤ 10239) : addrBytes a =
    if a.toNat ≤ 127 then [BitVec.ofNat 8 a.toNat]
    else [BitVec.ofNat 8 (0xC0 + a.toNat / 256), BitVec.ofNat 8 (a.toNat % 256)] := by
  split
  · exact addrBytes_of_short ‹_›
  · exact addrBytes_of_long (by omega) h

/-- The direction bit stands above the seven bits of the speed (R126). -/
theorem dsByte_eq {d v : Byte} (hd : d.toNat ≤ 1) (hv : v.toNat ≤ 127) :
    dsByte d v = BitVec.ofNat 8 (128 * d.toNat + v.toNat) := by
  have hcode : d = 1 ∨ d = 0 := by bv_omega
  rcases hcode with rfl | rfl
  · exact dsByte_forward hv
  · rw [dsByte_reverse hv]; simp

/-- The function byte of a fresh entry (R128). -/
theorem fg1Byte_eq {i x : Byte} (hi : i.toNat ≤ 4) : fg1Byte i x =
    if x.toNat = 1 then 0x80#8 ||| (if i.toNat = 0 then 0x10#8 else 1#8 <<< (i.toNat - 1)) else 0x80#8 := by
  have hx : x = 1 ↔ x.toNat = 1 := by bv_omega
  have hi0 : i = 0 ↔ i.toNat = 0 := by bv_omega
  simp only [fg1Byte, hx, fnMask_eq hi, hi0]
  rfl

/-- Settles O34: the appended entry holds its payload whole and its address in fourteen bits. -/
theorem setSpeedAppendsAFreshEntry : Obligations.SetSpeedAppendsAFreshEntry := by
  intro s r a d v ha1 ha2 hd hv hroom habsent
  have hlen := addrBytes_length_le a
  refine ⟨freshEntry .speed a (addrBytes a ++ encSpeed d v), rfl, storedAddr_toNat ha2, ?_, ?_⟩
  · rw [freshEntry_payload (by simp [encSpeed]; omega), addrBytes_eq ha2, encSpeed, dsByte_eq hd hv]
  · exact (setSpeed_of_valid s ha1 ha2 hd hv).trans (regUpdate_of_absent (regFind_eq_none_iff.mpr habsent) hroom)

/-- Settles O36: as SET_SPEED's, with the one function byte of R128. -/
theorem setFg1AppendsAFreshEntry : Obligations.SetFg1AppendsAFreshEntry := by
  intro s r a i x ha1 ha2 hi hx hroom habsent
  have hlen := addrBytes_length_le a
  refine ⟨freshEntry .fg1 a (addrBytes a ++ encFg1 i x), rfl, storedAddr_toNat ha2, ?_, ?_⟩
  · rw [freshEntry_payload (by simp [encFg1]; omega), addrBytes_eq ha2, encFg1, fg1Byte_eq hi]
  · exact (setFg1_of_valid s ha1 ha2 hi hx).trans (regUpdate_of_absent (regFind_eq_none_iff.mpr habsent) hroom)

/-! ## Patches -/

/-- A patch puts another last byte in place of the payload's (R141, R142). -/
theorem patchLast_payload_eq {f : Byte → Byte} {e : Entry} {b : Byte} (h4 : e.len.toNat ≤ 4)
    (hlast : e.payload.getLast? = some b) : (e.patchLast f).payload = e.payload.dropLast ++ [f b] :=
  patchLast_payload h4 (List.dropLast_append_getLast? b hlast).symm

/-- Settles O33: the patch found by REG_FIND puts DS_BYTE in place of the last byte. -/
theorem setSpeedPatchesTheLastByte : Obligations.SetSpeedPatchesTheLastByte := by
  intro s r a d v k e ha1 ha2 hd hv hget hcls haddr h1 h4 hfirst
  have hfind : regFind .speed a s.reg = some k := regFind_eq_some_iff.mpr ⟨⟨e, hget, hcls, haddr⟩, hfirst⟩
  have hne : e.payload ≠ [] := List.length_pos_iff.mp (by rwa [payload_length])
  obtain ⟨hcls', haddr', hlen'⟩ := patchLast_frame (fun _ => dsByte d v) e
  refine ⟨e.patchLast fun _ => dsByte d v, hcls', haddr', hlen', ?_, ?_⟩
  · rw [patchLast_payload_eq h4 (List.getLast?_eq_getLast_of_ne_nil hne), dsByte_eq hd hv]
  · exact (setSpeed_of_valid s ha1 ha2 hd hv).trans (regUpdate_of_found hfind hget)

theorem fnBit_eq (i : Byte) : fnBit i = if i.toNat = 0 then 4 else i.toNat - 1 := by
  have hi0 : i = 0 ↔ i.toNat = 0 := by bv_omega
  simp only [fnBit, hi0]

theorem getLsbD_fnMask {i : Byte} (hi : i.toNat ≤ 4) (n : Nat) : (fnMask i).getLsbD n = decide (n = fnBit i) := by
  have hlt := fnBit_lt hi
  have hbyte : fnBit i < 8 := by omega
  rw [fnMask_eq_shift hi, ← BitVec.twoPow_eq, BitVec.getLsbD_twoPow, decide_eq_true hbyte, Bool.true_and]
  exact decide_eq_decide.mpr eq_comm

/-- SET_FG1's patch writes the index's bit and keeps the others (R142, R48). -/
theorem getLsbD_fg1Patch {i x b : Byte} (hi : i.toNat ≤ 4) (n : Nat) : (fg1Patch i x b).getLsbD n =
    if n = fnBit i then decide (x.toNat = 1) else b.getLsbD n := by
  have hx : x = 1 ↔ x.toNat = 1 := by bv_omega
  have hones : (0xFF : Byte) ^^^ fnMask i = ~~~ fnMask i := BitVec.allOnes_xor
  have hbyte : b.getLsbD n = true → n < 8 := BitVec.lt_of_getLsbD
  rw [fg1Patch, hones, apply_ite (BitVec.getLsbD · n)]
  simp only [hx, BitVec.getLsbD_or, BitVec.getLsbD_and, BitVec.getLsbD_not, getLsbD_fnMask hi]
  by_cases hn : n = fnBit i
  · by_cases hset : x.toNat = 1 <;> simp [hn, hset]
  · by_cases hset : x.toNat = 1
    · simp [hn, hset]
    · simpa [hn, hset] using hbyte

/-- Settles O35: the patch found by REG_FIND writes the index's bit of the last byte. -/
theorem setFg1PatchesOneBit : Obligations.SetFg1PatchesOneBit := by
  intro s r a i x k e b ha1 ha2 hi hx hget hcls haddr _ h4 hfirst hlast
  have hfind : regFind .fg1 a s.reg = some k := regFind_eq_some_iff.mpr ⟨⟨e, hget, hcls, haddr⟩, hfirst⟩
  obtain ⟨hcls', haddr', hlen'⟩ := patchLast_frame (fg1Patch i x) e
  rw [← fnBit_eq]
  exact ⟨e.patchLast (fg1Patch i x), fg1Patch i x b, hcls', haddr', hlen', patchLast_payload_eq h4 hlast,
    getLsbD_fg1Patch hi, (setFg1_of_valid s ha1 ha2 hi hx).trans (regUpdate_of_found hfind hget)⟩

/-! ## Setting and clearing a function (R142 e) -/

theorem setByte_setByte (k : Nat) (u v : Byte) (e : Entry) : (e.setByte k u).setByte k v = e.setByte k v :=
  match k with
  | 0 | 1 | 2 | 3 | _ + 4 => rfl

theorem setByte_byteAt (k : Nat) (e : Entry) : e.setByte k (e.byteAt k) = e :=
  match k with
  | 0 | 1 | 2 | 3 | _ + 4 => rfl

theorem byteAt_setByte {k : Nat} (hk : k < 4) (v : Byte) (e : Entry) : (e.setByte k v).byteAt k = v :=
  match k, hk with
  | 0, _ | 1, _ | 2, _ | 3, _ => rfl

theorem patchLast_of_len {e : Entry} {k : Nat} (f : Byte → Byte) (hlen : e.len.toNat = k + 1) :
    e.patchLast f = e.setByte k (f (e.byteAt k)) := by
  simp only [Entry.patchLast, hlen]

theorem payload_getLast? {e : Entry} {k : Nat} (hlen : e.len.toNat = k + 1) :
    e.payload.getLast? = some (e.byteAt k) := by
  simp [Entry.payload, hlen, List.range_succ]

/-- A patch that gives the last byte back undoes a patch. -/
theorem patchLast_patchLast_cancel {f g : Byte → Byte} {e : Entry} {b : Byte} (h4 : e.len.toNat ≤ 4)
    (hlast : e.payload.getLast? = some b) (hcancel : g (f b) = b) : (e.patchLast f).patchLast g = e := by
  cases hlen : e.len.toNat with
  | zero => simp [Entry.payload, hlen] at hlast
  | succ k =>
    obtain rfl : e.byteAt k = b := by simpa [payload_getLast? hlen] using hlast
    have hlen' : (e.patchLast f).len.toNat = k + 1 := by rw [(patchLast_frame f e).2.2, hlen]
    rw [patchLast_of_len g hlen', patchLast_of_len f hlen, byteAt_setByte (by omega), setByte_setByte, hcancel,
      setByte_byteAt]

theorem fg1Patch_clear_set {i b : Byte} (hi : i.toNat ≤ 4) (hclear : b.getLsbD (fnBit i) = false) :
    fg1Patch i 0 (fg1Patch i 1 b) = b := by
  apply BitVec.eq_of_getLsbD_eq
  intro n _
  rw [getLsbD_fg1Patch hi, getLsbD_fg1Patch hi]
  split
  · subst n; simpa using hclear.symm
  · rfl

theorem fg1Patch_set_ne {i b : Byte} (hi : i.toNat ≤ 4) (hclear : b.getLsbD (fnBit i) = false) : fg1Patch i 1 b ≠ b := by
  intro hsame
  have hset : (fg1Patch i 1 b).getLsbD (fnBit i) = true := by simp [getLsbD_fg1Patch hi]
  rw [hsame, hclear] at hset
  cases hset

/-- In a canonical registry the entry with the key is the one SET_FG1 patches (R142). -/
theorem setFg1_of_key {s : State} {a : Addr} {i x : Byte} {k : Nat} {e : Entry} (h : RegOk s.reg) (hi : i.toNat ≤ 4)
    (hx : x.toNat ≤ 1) (hget : s.reg[k]? = some e) (hcls : e.cls = .fg1) (haddr : e.addr.toNat = a.toNat) :
    setFg1 a i x s = .next { s with
      reg := s.reg.set k (e.patchLast (fg1Patch i x)), ret := .resp (1#1 ++ BitVec.ofBool s.pwr) } := by
  obtain ⟨ha1, ha2, _⟩ : 1 ≤ e.addr.toNat ∧ e.addr.toNat ≤ 10239 ∧ _ := h.entries e (List.mem_of_getElem? hget)
  rw [haddr] at ha1 ha2
  rw [setFg1_of_valid s ha1 ha2 hi hx, regUpdate_of_found (regFind_of_nodup_keys h.keys hget hcls haddr) hget]

/-- Settles O37: both commands patch the one entry with the key, and the second patch undoes the first. -/
theorem setThenClearRestoresAClearBit : Obligations.SetThenClearRestoresAClearBit := by
  intro s t r a i k e b hinv hi hget hcls haddr hlast hclear hset
  change setFg1 a i 1 s = .next t at hset
  change _ ∧ setFg1 a i 0 t = _
  rw [← fnBit_eq] at hclear
  have h4 : e.len.toNat ≤ 4 :=
    payload_length e ▸ (hinv.registry.entries e (List.mem_of_getElem? hget)).payload_le
  have hreg := setFg1_regOk hinv.registry hset
  rw [setFg1_of_key hinv.registry hi (by decide) hget hcls haddr] at hset
  obtain rfl := Host.Outcome.next.inj hset
  obtain ⟨hk, hgetk⟩ := List.getElem?_eq_some_iff.mp hget
  have hget' : (s.reg.set k (e.patchLast (fg1Patch i 1)))[k]? = some (e.patchLast (fg1Patch i 1)) :=
    List.getElem?_set_self hk
  refine ⟨fun (hsame : s.reg.set k (e.patchLast (fg1Patch i 1)) = s.reg) => ?_, ?_⟩
  · have hpayload := patchLast_payload_eq (f := fg1Patch i 1) h4 hlast
    rw [hsame, hget] at hget'
    rw [← Option.some.inj hget'] at hpayload
    rw [hpayload, List.getLast?_concat] at hlast
    exact fg1Patch_set_ne hi hclear (Option.some.inj hlast)
  · obtain ⟨hcls', haddr', _⟩ := patchLast_frame (fg1Patch i 1) e
    rw [setFg1_of_key hreg hi (by decide) hget' (hcls'.trans hcls) (by rw [haddr', haddr]),
      patchLast_patchLast_cancel h4 hlast (fg1Patch_clear_set hi hclear), List.set_set, ← hgetk, List.set_getElem_self]

end Sys2Proof.Machine

/-! # Proofs: the scheduler (spec/42_registry_scheduler.md)

SEND takes a frame whole or drops it whole. A tick serves one entry and moves CURSOR past it, so ticks walk the registry in
cyclic order. The timer counts its period down and then ticks. No payload a tick sends is too long for SEND. -/

namespace Sys2Proof.Machine

/-! ## SEND (R144) -/

theorem send_of_fatal {p : List Byte} (s : State) (h : 5 < p.length) : send p s = { s with errFatal := true } := by
  rcases send_cases p s with ⟨_, e⟩ | ⟨_, _, _⟩ | ⟨_, _, _⟩
  · exact e
  · omega
  · omega

theorem send_of_full {p : List Byte} {s : State} (h5 : p.length ≤ 5) (h : 8 < s.q.length + p.length + 2) :
    send p s = { s with anom := true } := by
  rcases send_cases p s with ⟨_, _⟩ | ⟨_, _, e⟩ | ⟨_, _, _⟩
  · omega
  · exact e
  · omega

theorem send_of_fits {p : List Byte} {s : State} (h5 : p.length ≤ 5) (h : s.q.length + p.length + 2 ≤ 8) :
    send p s = { s with q := s.q ++ frame p } := by
  rcases send_cases p s with ⟨_, _⟩ | ⟨_, _, _⟩ | ⟨_, _, e⟩
  · omega
  · omega
  · exact e

/-- Settles O39: the three cases of SEND, the frame written out word by word. -/
theorem sendIsAllOrNothing : Obligations.SendIsAllOrNothing := by
  intro p s
  rw [← checksum_eq_foldr, ← frame_eq]
  exact ⟨fun h => congrArg _ (send_of_fatal s h), fun h5 h => congrArg _ (send_of_full h5 h),
    fun h5 h => congrArg _ (send_of_fits h5 h)⟩

/-! ## TICK (R143) -/

theorem tick_of_empty {s : State} (h : s.reg = []) : tick s = send [0xFF, 0x00] s := by
  rcases tick_cases s with ⟨_, e⟩ | ⟨entry, _, hmem, _⟩
  · exact e
  · simp [h] at hmem

/-- Settles O40: the tick is the SEND of the idle payload, whose frame is the four words. -/
theorem tickOfEmptyRegistrySendsIdle : Obligations.TickOfEmptyRegistrySendsIdle := by
  intro s hempty
  refine ⟨fun h => congrArg _ ((tick_of_empty hempty).trans ?_), fun h => congrArg _ ((tick_of_empty hempty).trans ?_)⟩
  · exact send_of_fits (by decide) (by simpa using h)
  · exact send_of_full (by decide) (by simp; omega)

theorem tickIndex_toNat (s : State) :
    (tickIndex s).toNat = if s.reg.length ≤ s.cursor.toNat then 0 else s.cursor.toNat := by
  rw [tickIndex, apply_ite BitVec.toNat]
  rfl

/-- A tick sends the entry it finds at its index and leaves CURSOR one past it. -/
theorem tick_serves {s : State} {k : Nat} {e : Entry} (hk : (tickIndex s).toNat = k) (hget : s.reg[k]? = some e) :
    tick s = send e.payload { s with cursor := BitVec.ofNat 15 (k + 1) } := by
  have hcursor : tickIndex s + 1 = BitVec.ofNat 15 (k + 1) := by rw [← hk]; bv_omega
  subst hk
  rcases tick_cases s with ⟨hempty, _⟩ | ⟨e', hget', _, heq⟩
  · simp [hempty] at hget
  · rw [hget'] at hget
    rw [heq, hcursor, Option.some.inj hget]

theorem send_cursor (p : List Byte) (s : State) : (send p s).cursor = s.cursor := by
  obtain ⟨_, _, _, e, _⟩ := send_frame p s
  rw [e]

theorem tick_reg (s : State) : (tick s).reg = s.reg := by
  obtain ⟨_, _, _, _, e, _⟩ := tick_frame s
  rw [e]

theorem tick_cursor {s : State} (hne : s.reg ≠ []) : (tick s).cursor = BitVec.ofNat 15 ((tickIndex s).toNat + 1) := by
  rw [tick_serves rfl (List.getElem?_eq_getElem (tickIndex_lt hne)), send_cursor]

/-- Settles O41: the entry a tick serves is the one under CURSOR, and SEND writes neither REG nor CURSOR. -/
theorem tickServesTheCursor : Obligations.TickServesTheCursor := by
  intro s k e hlen hne hk hget
  rw [← tickIndex_toNat] at hk
  have hlt := tickIndex_lt hne
  refine ⟨tick s, congrArg _ (tick_serves hk.symm hget).symm, rfl, tick_reg s, ?_⟩
  rw [tick_cursor hne, hk, BitVec.toNat_ofNat]
  omega

/-! ## A pass over the registry (R146, R147, R151) -/

/-- The next tick serves the next entry, and after the last the first. -/
theorem tickIndex_tick {s : State} (hne : s.reg ≠ []) (hlen : s.reg.length < 32768) :
    (tickIndex (tick s)).toNat = ((tickIndex s).toNat + 1) % s.reg.length := by
  have hlt := tickIndex_lt hne
  have hcursor : (tick s).cursor.toNat = (tickIndex s).toNat + 1 := by
    rw [tick_cursor hne, BitVec.toNat_ofNat]; omega
  rw [tickIndex_toNat (tick s), tick_reg, hcursor]
  split
  · rw [show (tickIndex s).toNat + 1 = s.reg.length by omega, Nat.mod_self]
  · rw [Nat.mod_eq_of_lt (by omega)]

/-- The state `m` ticks later serves the entry `m` places on, counted cyclically. -/
theorem repeatExec_tick (m : Nat) {s : State} (hne : s.reg ≠ []) (hlen : s.reg.length < 32768) :
    ∃ t, repeatExec .tick m s = .next t ∧ t.reg = s.reg ∧
      (tickIndex t).toNat = ((tickIndex s).toNat + m) % s.reg.length := by
  induction m generalizing s with
  | zero => exact ⟨s, rfl, rfl, (Nat.mod_eq_of_lt (tickIndex_lt hne)).symm⟩
  | succ m ih =>
    have hreg := tick_reg s
    obtain ⟨t, hrun, hreg', hindex⟩ := ih (s := tick s) (by rwa [hreg]) (by rwa [hreg])
    refine ⟨t, (repeatExec_succ m rfl).trans hrun, hreg'.trans hreg, ?_⟩
    rw [hindex, hreg, tickIndex_tick hne hlen, Nat.mod_add_mod, Nat.add_assoc, Nat.add_comm 1 m]

/-- Counting on cyclically from any index meets every index once. -/
theorem map_add_mod_range_perm (i n : Nat) :
    ((List.range n).map fun m => (i + m) % n).Perm (List.range n) := by
  have hrotate : (List.range n).map (fun m => (i + m) % n) = (List.range n).rotate i := by
    apply List.ext_getElem
    · simp
    · intro m h _
      simp [List.getElem_rotate, Nat.add_comm]
  rw [hrotate]
  exact List.rotate_perm _ _

/-- Settles O42: tick number `m` serves the entry `m` places on from the first served. -/
theorem ticksVisitEveryEntryOnce : Obligations.TicksVisitEveryEntryOnce := by
  intro s hne hlen
  refine ⟨fun m => ((tickIndex s).toNat + m) % s.reg.length, fun m => ?_, fun m => ?_, map_add_mod_range_perm _ _⟩
  · obtain ⟨t, hrun, hreg, hindex⟩ := repeatExec_tick m hne hlen
    have hlt := Nat.mod_lt ((tickIndex s).toNat + m) (List.length_pos_iff.mpr hne)
    have hget := List.getElem?_eq_getElem hlt
    exact ⟨t, tick t, _, hrun, hreg, hget, rfl, congrArg _ (tick_serves hindex (by rwa [hreg])).symm⟩
  · rw [Nat.mod_add_mod, Nat.add_assoc]

/-- Settles O43: CURSOR is inside the registry, so no tick before the entry's own starts a new pass. -/
theorem appendedEntryIsServedInTheSamePass : Obligations.AppendedEntryIsServedInTheSamePass := by
  intro s k e hlen hcursor hget
  have hk : k < s.reg.length := (List.getElem?_eq_some_iff.mp hget).1
  have hne : s.reg ≠ [] := List.length_pos_iff.mp (by omega)
  obtain ⟨t, hrun, hreg, hindex⟩ := repeatExec_tick (k - s.cursor.toNat) hne hlen
  rw [tickIndex_toNat s, if_neg (by omega), Nat.add_sub_cancel' hcursor, Nat.mod_eq_of_lt hk] at hindex
  exact ⟨t, tick t, hrun, hreg, rfl, congrArg _ (tick_serves hindex (by rwa [hreg])).symm⟩

/-! ## The timer (R148, R149) -/

section Timer

variable {s : State}

theorem timerClock_of_stopped (h : s.schedRun = false) : timerClock s = s := by
  rw [timerClock, if_pos h]

theorem timerClock_of_counting (hon : s.schedRun = true) (h2 : 2 ≤ s.tcnt.toNat) :
    timerClock s = { s with tcnt := s.tcnt - 1 } := by
  rw [timerClock, if_neg (by simp [hon]), if_pos h2]

theorem timerClock_of_due (hon : s.schedRun = true) (h1 : s.tcnt.toNat ≤ 1) :
    timerClock s = tick { s with tcnt := 15000 } := by
  rw [timerClock, if_neg (by simp [hon]), if_neg (by omega)]
  rfl

/-- Inside a period the timer only counts. -/
theorem repeatExec_timerClock_counts (hon : s.schedRun = true) {j : Nat} (hj : j < s.tcnt.toNat) :
    repeatExec .timerClock j s = .next { s with tcnt := BitVec.ofNat 14 (s.tcnt.toNat - j) } := by
  induction j generalizing s with
  | zero => simp [repeatExec]
  | succ j ih =>
    have hpred : (s.tcnt - 1).toNat = s.tcnt.toNat - 1 := by bv_omega
    rw [repeatExec_succ j (congrArg _ (timerClock_of_counting hon (by omega))),
      ih (s := { s with tcnt := s.tcnt - 1 }) hon (by rw [hpred]; omega), hpred, Nat.sub_sub, Nat.add_comm 1 j]

/-- A whole period counts down to 1 and then ticks. -/
theorem repeatExec_timerClock_period (hon : s.schedRun = true) {n : Nat} (hn : s.tcnt.toNat = n + 1) :
    repeatExec .timerClock n s = .next { s with tcnt := 1 } ∧
    repeatExec .timerClock (n + 1) s = exec .tick { s with tcnt := 15000 } := by
  have hcounts := repeatExec_timerClock_counts hon (j := n) (by omega)
  rw [hn, Nat.add_sub_cancel_left] at hcounts
  refine ⟨hcounts, (repeatExec_add 1 hcounts).trans ?_⟩
  exact congrArg _ (timerClock_of_due (s := { s with tcnt := 1 }) hon (Nat.le_refl 1))

end Timer

/-- Settles O44: the three branches of TIMER_CLOCK, and CLOCK_STEP's two halves. -/
theorem timerClockCasesAndClockOrder : Obligations.TimerClockCasesAndClockOrder :=
  fun _ => ⟨fun h => congrArg _ (timerClock_of_stopped h), fun hon h2 => congrArg _ (timerClock_of_counting hon h2),
    fun hon h1 => ⟨_, rfl, congrArg _ (timerClock_of_due hon h1)⟩, _, _, rfl, rfl, rfl⟩

/-- Settles O45: POWER_ON starts the timer with a whole period. -/
theorem firstTickAfterAFullPeriod : Obligations.FirstTickAfterAFullPeriod := by
  intro s t r a x y h
  obtain rfl : powerOn s = t := Host.Outcome.next.inj h
  exact repeatExec_timerClock_period (n := 14999) rfl rfl

/-! ## ERR_FATAL (R150, R172) -/

theorem send_errFatal {p : List Byte} {s : State} (h5 : p.length ≤ 5) : (send p s).errFatal = s.errFatal := by
  obtain ⟨_, _, _, e, _, _, hkept⟩ := send_frame p s
  rw [e]
  exact hkept h5

/-- The idle payload and every entry of a canonical registry are short enough for SEND. -/
theorem tick_errFatal {s : State} (h : RegOk s.reg) : (tick s).errFatal = s.errFatal := by
  rcases tick_cases s with ⟨_, e⟩ | ⟨entry, _, hmem, e⟩ <;> rw [e]
  · exact send_errFatal (by decide)
  · have h4 := (h.entries entry hmem).payload_le
    exact send_errFatal (s := { s with cursor := tickIndex s + 1 }) (by omega)

theorem timerClock_errFatal {s : State} (h : RegOk s.reg) : (timerClock s).errFatal = s.errFatal := by
  rcases timerClock_cases s with ⟨_, e⟩ | ⟨_, _, e⟩ | ⟨_, _, e⟩ <;> rw [e]
  exact tick_errFatal (s := { s with tcnt := 15000 }) h

theorem clockStep_errFatal {s : State} (h : RegOk s.reg) : (clockStep s).errFatal = s.errFatal := by
  obtain ⟨_, _, _, _, _, _, _, _, _, hengine, _⟩ := engineClock_frame s
  rw [clockStep, timerClock_errFatal (by rwa [hengine]), hengine]

theorem enqueue_errFatal (ws : List Word) (s : State) : (enqueue ws s).errFatal = s.errFatal := by
  obtain ⟨_, _, e, _⟩ := enqueue_frame ws s
  rw [e]

/-- Settles O54, by the five kinds of step: only a clock period runs SEND, and its payload is never too long. -/
theorem fatalErrorIsUnreachable : Obligations.FatalErrorIsUnreachable := by
  intro s t hinv hok hstep
  rcases step_cases hstep with ⟨rest, _, rfl⟩ | ⟨w, rest, _, hexec⟩ | ⟨w, rest, _, rfl⟩ | ⟨ws, rest, _, rfl⟩ |
    ⟨rest, _, rfl⟩
  · exact fun hfailed => hok ((clockStep_errFatal (s := { s with port := rest }) hinv.registry).symm.trans hfailed)
  · rcases exec_decodeCommand_frame hexec with rfl | rfl | ⟨g, ret, rfl⟩ <;> exact hok
  · exact fun hfailed => hok ((enqueue_errFatal [w] { s with port := rest }).symm.trans hfailed)
  · exact fun hfailed => hok ((enqueue_errFatal ws { s with port := rest }).symm.trans hfailed)
  · exact Bool.false_ne_true

end Sys2Proof.Machine

/-! # Proofs: the power controller and the command port (spec/43_power.md)

A command is one of six operations. The two power commands write PWR, SCHED_RUN and RUN, so the core they stop is a fixed
point of the clock; every other instruction leaves PWR and SCHED_RUN alone. -/

namespace Sys2Proof.Machine

/-! ## The command port (R166) -/

/-- Settles O50: EXEC_CMD dispatches on the same operation code as the decoder, and under the invariant there is a slot for
every key it may add. -/
theorem execCmdRunsTheDecodedCommand : Obligations.ExecCmdRunsTheDecodedCommand :=
  fun w s => ⟨(exec_decodeCommand w s).symm, fun hinv => execCmdWord_completes hinv.registry w⟩

/-- Settles O6: it is the branch of `step` for a command at the head of `port`. -/
theorem stepExecutesTheCommand : Obligations.StepExecutesTheCommand :=
  fun s w rest hport => by simp only [step, hport]

/-! ## The power commands (R160 to R162) -/

theorem respWord_ok_on : respWord true true = 3 := by decide

theorem respWord_ok_off : respWord true false = 2 := by decide

theorem powerOn_eq (s : State) : powerOn s =
    { s with pwr := true, run := true, cursor := 0, schedRun := true, tcnt := 15000, ret := .resp 3 } := by
  rw [← respWord_ok_on]; rfl

theorem powerOff_eq (s : State) : powerOff s =
    { s with pwr := false, schedRun := false, run := false, ret := .resp 2 } := by
  rw [← respWord_ok_off]; rfl

/-- Settles O47: each is one write of the registers named. -/
theorem powerTransitions : Obligations.PowerTransitions :=
  fun s _ _ _ _ => ⟨congrArg _ (powerOn_eq s), congrArg _ (powerOff_eq s)⟩

/-- Settles O48: POWER_QUERY is the response alone, and BOOST_EN is PWR. -/
theorem powerQueryReadsTheEnableLine : Obligations.PowerQueryReadsTheEnableLine :=
  fun _ _ _ _ _ => ⟨rfl, rfl⟩

/-! ## A power cycle (R164, R165, R183) -/

theorem clockStep_of_stopped {s : State} (hstop : s.run = false) (hoff : s.schedRun = false) : clockStep s = s := by
  rw [clockStep, engineClock_of_stopped hstop, timerClock_of_stopped hoff]

/-- Repeating an instruction that leaves a state unchanged. -/
theorem repeatExec_of_fixed {i : Instr} {s : State} (n : Nat) (h : exec i s = .next s) :
    repeatExec i n s = .next s := by
  induction n with
  | zero => rfl
  | succ n ih => rw [repeatExec_succ n h, ih]

/-- Settles O51: POWER_OFF stops both halves of the clock step, so the clock leaves its state unchanged, and neither power
command writes the engine's registers, Q or REG. -/
theorem powerCycleFreezesTheEngine : Obligations.PowerCycleFreezesTheEngine := by
  intro s t u v r r' a a' x x' y y' n hoff hclock hon
  obtain rfl : powerOff s = t := Host.Outcome.next.inj hoff
  have hfixed : exec .clockStep (powerOff s) = .next (powerOff s) := congrArg _ (clockStep_of_stopped rfl rfl)
  obtain rfl : powerOff s = u := Host.Outcome.next.inj ((repeatExec_of_fixed n hfixed).symm.trans hclock)
  obtain rfl : powerOn (powerOff s) = v := Host.Outcome.next.inj hon
  exact ⟨rfl, SameEngine.refl s, rfl, rfl, rfl⟩

/-! ## What leaves the power state alone (R163) -/

/-- PWR and SCHED_RUN are the same in two states. -/
def SamePower (s t : State) : Prop := t.pwr = s.pwr ∧ t.schedRun = s.schedRun

/-- It serves for every update of other fields too: the two are then the same by definition. -/
theorem SamePower.refl (s : State) : SamePower s s := ⟨rfl, rfl⟩

theorem SamePower.trans {s t u : State} (h : SamePower s t) (h' : SamePower t u) : SamePower s u :=
  ⟨h'.1.trans h.1, h'.2.trans h.2⟩

theorem loadWord_samePower (w : Word) (s : State) : SamePower s (loadWord w s) := by
  rcases loadWord_cases w s with ⟨_, e⟩ | ⟨_, e⟩ <;> rw [e]
  · exact SamePower.refl s
  · exact SamePower.refl s

theorem nextBit_samePower (s : State) : SamePower s (nextBit s) := by
  obtain ⟨_, _, _, _, _, _, e, _⟩ := nextBit_frame s
  rw [e]; exact SamePower.refl s

theorem engineClock_samePower (s : State) : SamePower s (engineClock s) := by
  obtain ⟨_, _, _, _, _, _, _, _, _, e, _⟩ := engineClock_frame s
  rw [e]; exact SamePower.refl s

theorem enqueue_samePower (ws : List Word) (s : State) : SamePower s (enqueue ws s) := by
  rw [enqueue_eq]; exact SamePower.refl s

theorem send_samePower (p : List Byte) (s : State) : SamePower s (send p s) := by
  obtain ⟨_, _, _, e, _⟩ := send_frame p s
  rw [e]; exact SamePower.refl s

theorem tick_samePower (s : State) : SamePower s (tick s) := by
  obtain ⟨_, _, _, _, e, _⟩ := tick_frame s
  rw [e]; exact SamePower.refl s

theorem timerClock_samePower (s : State) : SamePower s (timerClock s) := by
  obtain ⟨_, _, _, _, _, e, _⟩ := timerClock_frame s
  rw [e]; exact SamePower.refl s

theorem clockStep_samePower (s : State) : SamePower s (clockStep s) :=
  (engineClock_samePower s).trans (timerClock_samePower _)

theorem SamePower.of_registryCommand {s t : State} (h : ∃ g r, t = { s with reg := g, ret := r }) :
    SamePower s t := by
  obtain ⟨g, r, rfl⟩ := h
  exact SamePower.refl s

/-- EXEC_CMD of any operation code but those of POWER_OFF and POWER_ON. -/
theorem execCmdWord_samePower {w : CmdWord} {s t : State} (hoff : cmdOp w ≠ 1) (hon : cmdOp w ≠ 2)
    (h : execCmdWord w s = .next t) : SamePower s t := by
  unfold execCmdWord at h
  split at h
  · cases h; exact SamePower.refl s
  next hop => exact absurd (BitVec.eq_of_toNat_eq hop) hoff
  next hop => exact absurd (BitVec.eq_of_toNat_eq hop) hon
  · exact .of_registryCommand (setSpeed_frame h)
  · exact .of_registryCommand (setFg1_frame h)
  · cases h; exact SamePower.refl s

/-- Every instruction but the power commands keeps PWR and SCHED_RUN, one line for each kind of instruction. -/
theorem exec_samePower {i : Instr} {s t : State} (hother : powerCommand i = false) (hexec : exec i s = .next t) :
    SamePower s t := by
  cases i with
  | powerOff | powerOn => cases hother
  | pp | db | dbf | preamble | pad | shiftOut => cases hexec; exact SamePower.refl s
  | powerQuery | reservedOp | start | stop => cases hexec; exact SamePower.refl s
  | validAddr | validSpeed | validDir | validFn | validState | addrBytes | encSpeed | fnMask | encFg1 | checksum | frame
  | regFind => cases hexec; exact SamePower.refl s
  | setSpeed r a d v => exact .of_registryCommand (setSpeed_frame hexec)
  | setFg1 r a i x => exact .of_registryCommand (setFg1_frame hexec)
  | execCmd w =>
    obtain ⟨hoff, hon⟩ : cmdOp w ≠ 1 ∧ cmdOp w ≠ 2 := by simpa [powerCommand] using hother
    exact execCmdWord_samePower hoff hon hexec
  | pktSpeedShort | pktSpeedLong | pktFg1Short | pktFg1Long | pktIdle | send => cases hexec; exact send_samePower _ s
  | qPush w => cases hexec; exact enqueue_samePower [w] s
  | enqueue ws => cases hexec; exact enqueue_samePower ws s
  | loadWord w => cases hexec; exact loadWord_samePower w s
  | nextBit => cases hexec; exact nextBit_samePower s
  | engineClock => cases hexec; exact engineClock_samePower s
  | tick => cases hexec; exact tick_samePower s
  | timerClock => cases hexec; exact timerClock_samePower s
  | clockStep => cases hexec; exact clockStep_samePower s

/-- Settles O52: the instruction keeps PWR and SCHED_RUN, and BOOST_EN is PWR. -/
theorem onlyPowerCommandsChangeThePowerState : Obligations.OnlyPowerCommandsChangeThePowerState := by
  intro i s t hother hexec
  obtain ⟨hpwr, hsched⟩ := exec_samePower hother hexec
  exact ⟨hpwr, hpwr, hsched⟩

end Sys2Proof.Machine

/-! # Proofs: commands with invalid operands (R171)

Each command tests its operands once and touches the registry only behind the test, so all a proof has to show is that
an operand out of range fails it. The ranges are those of R120, R121, R123 and R124, and decision D13's two direction
codes. -/

namespace Sys2Proof.Machine

theorem setSpeed_of_invalid {a : Addr} {d v : Byte} (s : State)
    (h : a.toNat = 0 ∨ 10239 < a.toNat ∨ 1 < d.toNat ∨ 127 < v.toNat) :
    setSpeed a d v s = .next (respond false s) := by
  rcases setSpeed_cases a d v s with ⟨_, hreject⟩ | ⟨hvalid, _⟩
  · exact hreject
  · simp only [Bool.and_eq_true, validAddr_eq, validDir_eq, validSpeed, decide_eq_true_eq] at hvalid
    obtain ⟨⟨haddr, hdir⟩, hspeed⟩ := hvalid
    change v.toNat ≤ 127 at hspeed
    omega

theorem setFg1_of_invalid {a : Addr} {i x : Byte} (s : State)
    (h : a.toNat = 0 ∨ 10239 < a.toNat ∨ 4 < i.toNat ∨ 1 < x.toNat) :
    setFg1 a i x s = .next (respond false s) := by
  rcases setFg1_cases a i x s with ⟨_, hreject⟩ | ⟨hvalid, _⟩
  · exact hreject
  · simp only [Bool.and_eq_true, validAddr_eq, validFn_iff, validState_eq, decide_eq_true_eq] at hvalid
    obtain ⟨⟨haddr, hfn⟩, hstate⟩ := hvalid
    omega

/-- Settles O32: both commands reject the operands, and a rejection writes the response only (R171). -/
theorem invalidOperandsChangeNothing : Obligations.InvalidOperandsChangeNothing :=
  ⟨fun s _ _ _ _ h => setSpeed_of_invalid s h, fun s _ _ _ _ h => setFg1_of_invalid s h⟩

end Sys2Proof.Machine

/-! # Proofs: pacing and the stopped clock (R183, R201, R205)

What the core owes the line is counted in clocks. A clock of a running engine works off exactly one of them, and the timer
counts one down beside it; so a paced core owes nothing when a tick is due, finds Q empty, and the frame it then takes is
on the line before the next tick. -/

namespace Sys2Proof.Machine

/-! ## Clocks of line bits (R211) -/

theorem lineClocks_cons (b : Bool) (bs : List Bool) : lineClocks (b :: bs) = bitClocks b + lineClocks bs := rfl

theorem bitClocks_le (b : Bool) : bitClocks b ≤ 200 := Nat.mul_le_mul_left 2 (half_le b)

theorem lineClocks_le (bs : List Bool) : lineClocks bs ≤ bs.length * 200 := by
  have hbits : ∀ n ∈ bs.map bitClocks, n ≤ 200 := List.forall_mem_map.mpr fun b _ => bitClocks_le b
  simpa [lineClocks] using List.sum_le_card_nsmul _ _ hbits

theorem wirePacket_length (bytes : List Byte) : (wirePacket bytes).length = bytes.length * 9 + 17 := by
  have hbyte (b : Byte) : (wireByte b).length = 9 := by simp [wireByte]
  simp [wirePacket, List.length_flatMap, hbyte]

/-- The longest frame a tick sends has 62 line bits, of at most 200 clocks each. -/
theorem lineClocks_frame_le {p : List Byte} (h : p.length ≤ 4) : lineClocks (lineBits (frame p)) ≤ 12400 := by
  rw [lineBits_frame]
  have hle := lineClocks_le (wirePacket (p ++ [checksum p]))
  rw [wirePacket_length, List.length_append, List.length_singleton] at hle
  omega

/-! ## The clocks to the end of the bit on the line (R94) -/

section BitRest

variable {s : State}

theorem bitRest_pos (s : State) : 1 ≤ s.bitRest := by
  unfold State.bitRest
  split
  · exact Nat.le_refl 1
  next hne => exact Nat.le_add_right_of_le (by bv_omega)

theorem bitRest_le (h : s.EngineOk) : s.bitRest ≤ 200 := by
  have hcount := h.count
  have hhalf := half_le s.cur
  unfold State.bitRest
  split_ifs <;> omega

theorem bitRest_of_bitEnded (h : s.BitEnded) : s.bitRest = 1 := by
  rcases h with h0 | ⟨h1, hphase⟩
  · simp [State.bitRest, h0]
  · simp [State.bitRest, h1, hphase]

theorem half_ne_zero (b : Bool) : half b ≠ 0#7 := by cases b <;> decide

/-- A bit that begins has both its half-cycles ahead. -/
theorem beginBit_bitRest (s : State) : (beginBit s).bitRest = bitClocks s.cur := by
  simp [State.bitRest, bitClocks, half_ne_zero, Nat.two_mul]

/-- Inside a bit a clock works off one clock of it. -/
theorem engineClock_bitRest (hrun : s.run = true) (hinside : ¬ s.BitEnded) :
    (engineClock s).bitRest + 1 = s.bitRest := by
  rcases engineClock_cases s with ⟨hstop, _⟩ | ⟨_, h2, e⟩ | ⟨_, h1, hphase, e⟩ | ⟨_, hend, _⟩
  · simp [hrun] at hstop
  · have hne : s.hc ≠ 0 := by bv_omega
    have hne' : s.hc - 1 ≠ 0 := by bv_omega
    have hpred : (s.hc - 1).toNat + 1 = s.hc.toNat := by bv_omega
    rw [e]
    simp only [State.bitRest, hne, hne', if_false]
    omega
  · rw [e]
    simp [State.bitRest, h1, hphase, half_ne_zero, Nat.add_comm]
  · exact absurd hend hinside

end BitRest

/-! ## The clocks until the core owes nothing (R205) -/

/-- Clocks from now until everything the core owes is on the line. -/
def State.drainClocks (s : State) : Nat := s.bitRest + lineClocks s.residue

/-- One engine clock works off one clock of what the core owes; where it owed nothing it still does not. -/
theorem engineClock_drains {s : State} (h : s.EngineOk) (hrun : s.run = true) :
    (engineClock s).residue = [] ∨ (s.residue ≠ [] ∧ (engineClock s).drainClocks + 1 = s.drainClocks) := by
  by_cases hend : s.BitEnded
  · have hclock : (engineClock s).residue = (nextBit s).residue ∧
        (engineClock s).bitRest = bitClocks (nextBit s).cur := by
      rw [engineClock_of_bitEnded hrun hend]
      exact ⟨rfl, beginBit_bitRest _⟩
    obtain ⟨hres, hrest⟩ := hclock
    refine (nextBit_residue h.bits).symm.imp (fun ⟨_, _, hnone, _⟩ => hres.trans hnone) fun howed => ⟨by simp [howed], ?_⟩
    rw [State.drainClocks, State.drainClocks, hres, hrest, bitRest_of_bitEnded hend, howed, lineClocks_cons, Nat.add_comm]
  · obtain ⟨_, _, hsame⟩ := engineClock_appends_nothing fun ⟨_, hended⟩ => hend hended
    have hres : (engineClock s).residue = s.residue := by rw [hsame, lineBits_nil, List.append_nil]
    refine or_iff_not_imp_left.mpr fun howes => ⟨hres ▸ howes, ?_⟩
    rw [State.drainClocks, State.drainClocks, hres, ← engineClock_bitRest hrun hend, Nat.add_right_comm]

theorem emitWord_ne_nil (w : Word) : emitWord w ≠ [] := by
  have hbits {n : Nat} (v : BitVec (n + 1)) : bitsOf v ≠ [] := List.ne_nil_of_length_eq_add_one (bitsOf_length v)
  unfold emitWord
  split
  · exact hbits _
  · exact List.append_ne_nil_of_left_ne_nil (hbits _) _

/-- A core that owes no line bit has no word queued. -/
theorem q_nil_of_residue_nil {s : State} (h : s.residue = []) : s.q = [] := by
  have hline : lineBits s.q = [] := (List.append_eq_nil_iff.mp h).2
  cases hq : s.q with
  | nil => rfl
  | cons w rest =>
    rw [hq, lineBits_cons] at hline
    exact absurd (List.append_eq_nil_iff.mp hline).1 (emitWord_ne_nil w)

/-! ## The nominal timer (R143, R148, R205) -/

/-- A tick that finds Q empty drops nothing: Q takes the whole frame it sends, and no flag is written. -/
theorem tick_of_empty_queue {s : State} (hreg : RegOk s.reg) (hq : s.q = []) :
    ∃ c p, p.length ≤ 4 ∧ tick s = { s with cursor := c, q := s.q ++ frame p } := by
  have hfits {p : List Byte} (h4 : p.length ≤ 4) : s.q.length + p.length + 2 ≤ 8 := by
    rw [hq, List.length_nil]; omega
  rcases tick_cases s with ⟨_, e⟩ | ⟨entry, _, hmem, e⟩
  · exact ⟨s.cursor, [0xFF, 0x00], by decide, e.trans (send_of_fits (by decide) (hfits (by decide)))⟩
  · have h4 := (hreg.entries entry hmem).payload_le
    exact ⟨tickIndex s + 1, entry.payload, h4,
      e.trans (send_of_fits (s := { s with cursor := tickIndex s + 1 }) (by omega) (hfits h4))⟩

/-- A paced core stays paced, and ANOM and QOVF stay as they were. -/
def KeepsPace (s t : State) : Prop := t.Paced ∧ t.anom = s.anom ∧ t.qovf = s.qovf

/-- A tick of a core that owes nothing: its frame is on the line before the next tick. -/
theorem tick_keepsPace {s : State} (h : s.Inv) (howes : s.residue = []) (hon : s.schedRun = true)
    (hfull : s.tcnt = 15000) : KeepsPace s (tick s) := by
  obtain ⟨c, p, h4, e⟩ := tick_of_empty_queue h.registry (q_nil_of_residue_nil howes)
  rw [e]
  obtain ⟨_, _, hres⟩ : Appends s (frame p) { s with cursor := c, q := s.q ++ frame p } := .of_sameEngine rfl
  refine ⟨.inr ?_, rfl, rfl⟩
  rw [hres, howes, List.nil_append, if_pos hon, hfull]
  calc s.bitRest + lineClocks (lineBits (frame p))
    _ ≤ 200 + 12400 := Nat.add_le_add (bitRest_le h.engine) (lineClocks_frame_le h4)
    _ ≤ 15000 := by decide

/-- The timer's half of a clock step, the engine having worked off its clock: a tick is due only where nothing is owed. -/
theorem timerClock_keepsPace {s : State} (h : s.Inv) (hon : s.schedRun = true)
    (hahead : s.residue = [] ∨ s.drainClocks + 1 ≤ s.tcnt.toNat) : KeepsPace s (timerClock s) := by
  rcases timerClock_cases s with ⟨hoff, _⟩ | ⟨_, h2, e⟩ | ⟨_, hdue, e⟩
  · simp [hon] at hoff
  · rw [e]
    refine ⟨hahead.imp id fun hle => ?_, rfl, rfl⟩
    have hpred : (s.tcnt - 1).toNat = s.tcnt.toNat - 1 := by bv_omega
    rw [if_pos hon, hpred]
    exact Nat.le_sub_of_add_le hle
  · have howes : s.residue = [] := by
      refine hahead.resolve_right fun hle => ?_
      have hpos := bitRest_pos s
      rw [State.drainClocks] at hle
      omega
    rw [e]
    exact tick_keepsPace (s := { s with tcnt := 15000 }) (h.with_timer (by decide)) howes hon rfl

/-- The engine writes no register of the timer and no flag (R94). -/
theorem engineClock_leavesTimer (s : State) : (engineClock s).schedRun = s.schedRun ∧ (engineClock s).tcnt = s.tcnt ∧
    (engineClock s).anom = s.anom ∧ (engineClock s).qovf = s.qovf := by
  obtain ⟨_, _, _, _, _, _, _, _, _, e, _⟩ := engineClock_frame s
  rw [e]
  exact ⟨rfl, rfl, rfl, rfl⟩

/-- A clock period keeps the pace: a stopped core is unchanged, and in a running one the engine works off a clock before
the timer counts one. -/
theorem clockStep_keepsPace {s : State} (h : s.Inv) (hpaced : s.Paced) : KeepsPace s (clockStep s) := by
  obtain ⟨hrun, hsched⟩ := h.power
  cases hpwr : s.pwr with
  | false =>
    rw [clockStep_of_stopped (hrun.trans hpwr) (hsched.trans hpwr)]
    exact ⟨hpaced, rfl, rfl⟩
  | true =>
    have hon : s.schedRun = true := hsched.trans hpwr
    obtain ⟨hsched', htcnt, hanom, hqovf⟩ := engineClock_leavesTimer s
    have hahead : (engineClock s).residue = [] ∨ (engineClock s).drainClocks + 1 ≤ (engineClock s).tcnt.toNat := by
      refine (engineClock_drains h.engine (hrun.trans hpwr)).imp id fun ⟨howed, hdrain⟩ => ?_
      have hbefore := hpaced.resolve_left howed
      rw [if_pos hon] at hbefore
      rw [hdrain, htcnt]
      exact hbefore
    obtain ⟨hpace, hanom', hqovf'⟩ := timerClock_keepsPace (engineClock_inv h) (hsched'.trans hon) hahead
    exact ⟨hpace, hanom'.trans hanom, hqovf'.trans hqovf⟩

/-- A command leaves what is owed alone; the power commands give it a whole period, which is no less than was left. -/
theorem exec_decodeCommand_keepsPace {w : CmdWord} {s t : State} (h : s.Inv) (hpaced : s.Paced)
    (hexec : exec (decodeCommand w) s = .next t) : KeepsPace s t := by
  have hperiod : s.residue = [] ∨ s.drainClocks ≤ 15000 := hpaced.imp id fun hle => hle.trans <| by
    split
    next hon => exact (h.timer hon).2
    · exact Nat.le_refl _
  rcases exec_decodeCommand_frame hexec with rfl | rfl | ⟨g, r, rfl⟩
  · exact ⟨hperiod, rfl, rfl⟩
  · exact ⟨hperiod, rfl, rfl⟩
  · exact ⟨hpaced, rfl, rfl⟩

/-- Settles O46, by the kinds of step: a clock period and a command keep the pace, reset owes nothing, and a raw push is
excluded. -/
theorem nominalTimerNeverDropsAPacket : Obligations.NominalTimerNeverDropsAPacket := by
  intro s t hinv hpaced hraw hstep
  rcases step_cases hstep with ⟨rest, _, rfl⟩ | ⟨w, rest, _, hexec⟩ | ⟨w, rest, hport, _⟩ | ⟨ws, rest, hport, _⟩ |
    ⟨rest, hport, rfl⟩
  · exact (clockStep_keepsPace (s := { s with port := rest }) hinv.with_unread hpaced).imp_right fun h _ => h
  · exact (exec_decodeCommand_keepsPace (s := { s with port := rest }) hinv.with_unread hpaced hexec).imp_right
      fun h _ => h
  · simp [State.NoRawPush, hport] at hraw
  · simp [State.NoRawPush, hport] at hraw
  · exact ⟨.inl rfl, fun hrst => by simp [hport] at hrst⟩

/-! ## The stopped core (R183, R201) -/

/-- Settles O56: the one action left is a clock period, which leaves the stopped core unchanged. -/
theorem stoppedCoreIsUnchangedByTheClock : Obligations.StoppedCoreIsUnchangedByTheClock := by
  intro s n hstop hoff hport
  have hfixed : step s = .next s := (step_of_port_nil hport).trans (congrArg _ (clockStep_of_stopped hstop hoff))
  induction n with
  | zero => rfl
  | succ n ih => rw [core_run_succ n hfixed, ih]

end Sys2Proof.Machine
